-- ==== Sys2Proof/Word.lean ====
section
/-! DEFINITION. The bit-vector types of the ACS core (spec/00_scope.md R5, R8) and the vectors of eight
entries that its register file and its wire vectors are made of. -/

namespace Sys2Proof

/-- `Bits16` of R8: a general register, `A`, `G`, `DIN`, `bus` and `alu_result_wire`. -/
abbrev Word := BitVec 16

/-- `Bits9` of R8: the instruction register. -/
abbrev IrWord := BitVec 9

/-- `Bits3` of R8 as a register index, 0 to 7. -/
abbrev RegIdx := BitVec 3

/-- `Bits3` of R8 as an opcode, 0 to 7. -/
abbrev Opcode := BitVec 3

/-- The general registers `R[0..7]`: "fixed at 8 and never resized" (R21). -/
abbrev RegFile := Vector Word 8

/-- One wire per general register: `reg_load[0..7]` and `reg_out[0..7]` (R30). -/
abbrev RegWires := Vector Bool 8

end Sys2Proof
end

