-- ==== Sys2Proof/Config.lean ====
section
/-! DEFINITION. The one parameter of the core (spec/00_scope.md R6). The spec fixes every other value, so
there is no free value in this model. -/

namespace Sys2Proof

/-- The values of `LITERAL_OVERFLOW` (R6): what the literal path does with a value of 2^16 or more. -/
inductive LiteralOverflow where
  /-- The update is rejected as `InvalidNumericLiteral` (R79). -/
  | reject
  /-- The value modulo 2^16 is stored (R79). -/
  | wrap
deriving DecidableEq, Repr

/-- "The spec's value is `reject`" (R6, decision D6; log entry 4). -/
def Config.literalOverflow : LiteralOverflow := .reject

end Sys2Proof
end

