-- ==== Sys2Proof/Syntax.lean ====
section
/-! DEFINITION. The instructions (spec/30_encoding.md R50 to R55) and the host's input events
(spec/00_scope.md R4, spec/44_host_events.md). -/

namespace Sys2Proof

/-- One constructor per row of spec/opcode_table.json. Register operands are the raw 3-bit indices
(R53). -/
inductive Instr where
  /-- Row `mv`, opcode 0 (R70). -/
  | mv (dest src : RegIdx)
  /-- Row `mvi`, opcode 1 (R71). `src` is "decoded but no rule reads it" (R53). -/
  | mvi (dest src : RegIdx)
  /-- Row `add`, opcode 2 (R72). -/
  | add (dest src : RegIdx)
  /-- Row `sub`, opcode 3 (R73). -/
  | sub (dest src : RegIdx)
  /-- Row `undefined__opcodes_4-7` (R54, R67): `opcode` is 4 to 7 (see WellFormed). -/
  | undef (opcode : Opcode) (dest src : RegIdx)
deriving DecidableEq, Repr

/-- The radix set {2, 8, 10, 16} of R5. -/
inductive Radix where
  | bin
  | oct
  | dec
  | hex
deriving DecidableEq, Repr

/-- The number a radix stands for (R5). -/
def Radix.base : Radix → Nat
  | .bin => 2
  | .oct => 8
  | .dec => 10
  | .hex => 16

/-- The environment inputs an EnvironmentTick samples (R76). -/
structure Environment where
  run : Bool
  resetN : Bool
  registerRadix : Radix
  irRadix : Radix
deriving DecidableEq, Repr

/-- The source of a DataInputUpdate (R77). -/
inductive DataSource where
  /-- A mnemonic text, for the encoder of R78. -/
  | mnemonic (text : String)
  /-- A numeric literal with the radix the event carries (R79, conflict C9). -/
  | literal (text : String) (radix : Radix)
deriving DecidableEq, Repr

/-- The four input events of R4. -/
inductive Event where
  /-- Samples the environment inputs (R76). -/
  | environmentTick (env : Environment)
  /-- One active edge of the clock (R60). -/
  | clockEdge
  /-- Writes the data-input register through the codec (R77). -/
  | dataInputUpdate (source : DataSource)
  /-- Records the focused diagram element, outside the core (R80). -/
  | hoverFocus (id : String)
deriving DecidableEq, Repr

/-- The results a DataInputUpdate may return instead of writing `DIN` (R77, R82). -/
inductive Rejection where
  /-- `MalformedMnemonic`: the text matches none of the four forms (R78). -/
  | malformedMnemonic
  /-- `InvalidNumericLiteral`: no literal of the radix, or too large (R79). -/
  | invalidNumericLiteral
deriving DecidableEq, Repr

end Sys2Proof
end

