-- ==== Sys2Proof/WellFormed.lean ====
section
/-! DEFINITION. Which instructions are words of the machine (spec/30_encoding.md R52). -/

namespace Sys2Proof

/-- R52: the undefined opcodes "are exactly `opcode[2] = 1`". Every other constructor fixes its
opcode, and an index of three bits is always one of `R0` to `R7`. -/
def Instr.wellFormed : Instr → Bool
  | .mv _ _ => true
  | .mvi _ _ => true
  | .add _ _ => true
  | .sub _ _ => true
  | .undef opcode _ _ => opcode.getLsbD 2

/-- `i` is the instruction of some 9-bit word. -/
abbrev Instr.WellFormed (i : Instr) : Prop := i.wellFormed = true

end Sys2Proof
end

