-- ==== Sys2Proof/Decode.lean ====
section
/-! DEFINITION. Decode and encode (spec/30_encoding.md R50 to R57). Decode has no failure outcome: "any 9-bit
value decodes without error" (R51), so the decoder is total and refuses no word. -/

namespace Sys2Proof

/-- `opcode(IR) = IR[8:6]` (R51). -/
def opcodeField (ir : IrWord) : Opcode := ir.extractLsb' 6 3

/-- `dest(IR) = IR[5:3]` (R51). -/
def destField (ir : IrWord) : RegIdx := ir.extractLsb' 3 3

/-- `src(IR) = IR[2:0]` (R51). -/
def srcField (ir : IrWord) : RegIdx := ir.extractLsb' 0 3

/-- The 9-bit instruction a fetch takes from a data-input word: `DIN[15:7]` (R50, R66). -/
def fetchField (din : Word) : IrWord := din.extractLsb' 7 9

/-- The instruction a 9-bit word stands for (R51, R52). -/
def decode (ir : IrWord) : Instr :=
  match (opcodeField ir).toNat with
  | 0 => .mv (destField ir) (srcField ir)
  | 1 => .mvi (destField ir) (srcField ir)
  | 2 => .add (destField ir) (srcField ir)
  | 3 => .sub (destField ir) (srcField ir)
  | _ => .undef (opcodeField ir) (destField ir) (srcField ir)

/-- The instruction in a 16-bit data-input word; `DIN[6:0]` is ignored (R50, R54). -/
def decodeWord (din : Word) : Instr := decode (fetchField din)

/-- The 9-bit packing `opcode << 6 | dest << 3 | src` (R50). -/
def packFields (opcode : Opcode) (dest src : RegIdx) : IrWord :=
  (opcode.setWidth 9 <<< 6) ||| (dest.setWidth 9 <<< 3) ||| src.setWidth 9

/-- The 9-bit word of an instruction, `src` of `mvi` included. -/
def encodeIr : Instr → IrWord
  | .mv dest src => packFields 0 dest src
  | .mvi dest src => packFields 1 dest src
  | .add dest src => packFields 2 dest src
  | .sub dest src => packFields 3 dest src
  | .undef opcode dest src => packFields opcode dest src

/-- The data-input word of an instruction: the packing shifted left by 7, `DIN[6:0] = 0` (R57). -/
def encode (i : Instr) : Word := (encodeIr i).setWidth 16 <<< 7

/-- The low `nbits` bits of `w` as a data-input word, every bit above them zero. -/
def tableWord (nbits w : Nat) : Word := BitVec.ofNat 16 (w % 2 ^ nbits)

/-- The instruction the decoder reads from an opcode-table word. A word of more than 16 bits is no
instruction of this machine (R55). -/
def decodeTableWord (nbits w : Nat) : Option Instr :=
  if nbits ≤ 16 then some (decodeWord (tableWord nbits w)) else none

end Sys2Proof
end

