-- ==== Sys2Proof/Machine/Codec.lean ====
section
/-! DEFINITION. The instruction codec's two encoders (spec/44_host_events.md R78, R79; spec/30_encoding.md R56 to R58). A text is
read as its list of characters. -/

namespace Sys2Proof.Machine

/-- The register a digit after `R` names: the class `[0-7]` of R56, read as its distance from `0`. -/
def regDigit (c : Char) : Option RegIdx :=
  if '0' ≤ c ∧ c ≤ '7' then some (BitVec.ofNat 3 (c.toNat - '0'.toNat)) else none

/-- The two operands of a form with two register tokens. -/
def regPair (form : RegIdx → RegIdx → Instr) (i j : Char) : Option Instr :=
  match regDigit i, regDigit j with
  | some dest, some src => some (form dest src)
  | _, _ => none

/-- The mnemonic grammar (R56): the whole text is one of the four forms, letter for letter. -/
def parseMnemonic (text : List Char) : Option Instr :=
  match text with
  | ['m', 'v', ' ', 'R', i, ' ', 'R', j] => regPair .mv i j
  | ['m', 'v', 'i', ' ', 'R', i] => (regDigit i).map fun dest => .mvi dest 0
  | ['a', 'd', 'd', ' ', 'R', i, ' ', 'R', j] => regPair .add i j
  | ['s', 'u', 'b', ' ', 'R', i, ' ', 'R', j] => regPair .sub i j
  | _ => none

/-- `encodeMnemonic(text)` (R78). -/
def encodeMnemonic (text : String) : Except Rejection Word :=
  match parseMnemonic text.toList with
  | some i => .ok (encode i)
  | none => .error .malformedMnemonic

/-- "The ordered digit alphabet `0123456789ABCDEF`" (R58). -/
def digitAlphabet : List Char := "0123456789ABCDEF".toList

/-- The digits of a radix: the alphabet "truncated to the first `b` symbols" (R58). -/
def radixAlphabet (b : Radix) : List Char := digitAlphabet.take b.base

/-- The value of a digit: its position in the radix's alphabet (R58). -/
def digitValue (b : Radix) (c : Char) : Option Nat := (radixAlphabet b).idxOf? c

/-- The unsigned value of a list of digits, most significant first, after digits worth `acc` (R58). -/
def digitsValue (b : Radix) (acc : Nat) : List Char → Option Nat
  | [] => some acc
  | c :: rest =>
    match digitValue b c with
    | some d => digitsValue b (acc * b.base + d) rest
    | none => none

/-- The word a value is stored as, if it is stored (R79). -/
def storeLiteral (overflow : LiteralOverflow) (v : Nat) : Except Rejection Word :=
  if v < 2 ^ 16 then .ok (BitVec.ofNat 16 v)
  else
    match overflow with
    | .reject => .error .invalidNumericLiteral
    | .wrap => .ok (BitVec.ofNat 16 (v % 2 ^ 16))

/-- `encodeLiteral(text, b)` under a value of `LITERAL_OVERFLOW` (R79, decision D6; log entry 4). -/
def encodeLiteral (overflow : LiteralOverflow) (text : String) (b : Radix) : Except Rejection Word :=
  match text.toList with
  | [] => .error .invalidNumericLiteral
  | c :: rest =>
    match digitsValue b 0 (c :: rest) with
    | some v => storeLiteral overflow v
    | none => .error .invalidNumericLiteral

/-- The word a DataInputUpdate writes, or its rejection (R77). -/
def encodeSource : DataSource → Except Rejection Word
  | .mnemonic text => encodeMnemonic text
  | .literal text b => encodeLiteral Config.literalOverflow text b

end Sys2Proof.Machine
end

