-- ==== Sys2Proof/Machine/State.lean ====
section
/-! DEFINITION. The state of the core (spec/10_state.md), the host's side of the interface, and the state after
power-on (spec/70_reset_and_hazards.md R94). -/

namespace Sys2Proof.Machine

/-- The phase counter, "an integer in {0, 1, 2, 3}" (R27). -/
inductive Phase where
  | p0
  | p1
  | p2
  | p3
deriving DecidableEq, Repr

/-- The phase as the spec's integer (R27). -/
def Phase.toNat : Phase → Nat
  | .p0 => 0
  | .p1 => 1
  | .p2 => 2
  | .p3 => 3

/-- The control-signal wires, in the order of the table of R30. -/
structure Wires where
  irLoad : Bool
  accumLoad : Bool
  aluResultLoad : Bool
  regLoad : RegWires
  regOut : RegWires
  accumOut : Bool
  dataInOut : Bool
  aluResultOut : Bool
  subtractMode : Bool
  aluResultWire : Word
  clear : Bool
deriving DecidableEq, Repr

/-- Every wire false, `alu_result_wire` zero: the value of the per-edge reset (R64) and of power-on
(R37). -/
def Wires.off : Wires where
  irLoad := false
  accumLoad := false
  aluResultLoad := false
  regLoad := Vector.replicate 8 false
  regOut := Vector.replicate 8 false
  accumOut := false
  dataInOut := false
  aluResultOut := false
  subtractMode := false
  aluResultWire := 0
  clear := false

/-- The Machine State of R20: "exactly the fields below". It is what the host sees after every event
(R92). -/
structure Snapshot where
  /-- General registers `R[0..7]` (R21). -/
  regs : RegFile
  /-- Accumulator `A` (R22). -/
  a : Word
  /-- ALU result register `G` (R23). -/
  g : Word
  /-- Instruction register `IR` (R24). -/
  ir : IrWord
  /-- Data-input register `DIN` (R26). -/
  din : Word
  /-- Phase counter (R27). -/
  phase : Phase
  /-- Completion flag (R28). -/
  done : Bool
  /-- First-run gate (R29). -/
  awaitingFirstRun : Bool
  /-- Control-signal wires (R30 to R32). -/
  wires : Wires
  /-- The last value driven onto the bus (R33). -/
  bus : Word
  /-- Environment input `run`, as last sampled (R34). -/
  run : Bool
  /-- Environment input `reset_n`, as last sampled (R34). -/
  resetN : Bool
  /-- Display radix of the registers, as last sampled (R35). -/
  registerRadix : Radix
  /-- Display radix of `IR`, as last sampled (R35). -/
  irRadix : Radix
deriving DecidableEq, Repr

/-- The machine: the core's Machine State and the two fields of the model at the host's side (log
entries 1 and 3). -/
structure State extends Snapshot where
  /-- The host's events that the core has not received yet, oldest first (R4, R81; log entry 1). -/
  events : List Event
  /-- The rejection the last event returned to the host, if it returned one (R77; log entry 3). -/
  reply : Option Rejection
deriving DecidableEq, Repr

/-- The reasons a step may stop with a fault: none. "The core raises no synchronous exception" (R82), and
a model must not add a trap (R86). Safe: nothing can raise one. -/
inductive Fault : Type
deriving DecidableEq, Repr

/-- The reasons a step may be refused. -/
inductive Refusal where
  /-- Raised by an arm of `exec` whose instruction has no meaning yet; no arm raises it in this model.
  Safe: the machine stops where the hardware goes on. -/
  | notModelled (mnemonic : String)
deriving DecidableEq, Repr

/-- The Machine State that power-on creates (R37, R94). The values of `done`, the wires, `bus`, `run`,
`resetN` and the radices are the spec's decision D3 (log entry 5). -/
def Snapshot.startup : Snapshot where
  regs := Vector.replicate 8 0
  a := 0
  g := 0
  ir := 0
  din := 0
  phase := .p0
  done := false
  awaitingFirstRun := true
  wires := Wires.off
  bus := 0
  run := false
  resetN := false
  registerRadix := .dec
  irRadix := .dec

/-- The machine right after power-on, with no event sent yet (R94; log entry 1). -/
def State.reset : State where
  toSnapshot := Snapshot.startup
  events := []
  reply := none

end Sys2Proof.Machine
end

