-- ==== Sys2Proof/Machine/Flags.lean ====
section
/-! DEFINITION. The status bits. The core has no arithmetic flag (spec/10_state.md R36): what the spec computes from
status bits are the entry guards, the phase advance and the display signal `clear`. -/

namespace Sys2Proof.Machine

/-- Completion hold: the guard of R62. -/
def completionHold (s : State) : Bool := !s.run && s.done

/-- First-run gate: the guard of R61. -/
def firstRunGate (s : State) : Bool := s.awaitingFirstRun && !s.run

/-- An edge proceeds when neither entry guard stops it (R60), checked in the order of D12. -/
def edgeProceeds (s : State) : Bool := !(completionHold s || firstRunGate s)

/-- `(phase + 1) mod 4` (R63). -/
def Phase.advance : Phase → Phase
  | .p0 => .p1
  | .p1 => .p2
  | .p2 => .p3
  | .p3 => .p0

/-- The phase-advance rule, computed from the values before the edge (R63). -/
def nextPhase (s : State) : Phase := if s.done then .p0 else s.phase.advance

/-- `reset_n OR done`, a display signal that drives nothing (R32, R76). -/
def clearSignal (resetN done : Bool) : Bool := resetN || done

end Sys2Proof.Machine
end

