-- ==== Sys2Proof/Machine/Operands.lean ====
section
/-! DEFINITION. Operand forms (spec/30_encoding.md R53), the register file's two accesses and the adder-subtractor
(spec/42_alu.md R74). -/

namespace Sys2Proof.Machine

/-- `R[i]` of a register file. No register is hard-wired (R21). -/
def readReg (regs : RegFile) (i : RegIdx) : Word := regs[i.toNat]'i.isLt

/-- The register file with `R[i] <- v` (R21). -/
def writeReg (regs : RegFile) (i : RegIdx) (v : Word) : RegFile := regs.set i.toNat v i.isLt

/-- The wire vector with bit `i` alone set (R30). -/
def onlyWire (i : RegIdx) : RegWires := (Vector.replicate 8 false).set i.toNat true i.isLt

/-- The value of a register operand, `dest` or `src`: the index is used as it is (R53). -/
def regOperand (i : RegIdx) (s : State) : Word := readReg s.regs i

/-- The operand of `mvi`: the whole of `DIN` as it stands at the edge (R53, conflict C1). -/
def dataOperand (s : State) : Word := s.din

/-- The adder-subtractor of R74, modulo 2^16 (decision D2; log entry 6). `a` is the accumulator, `b`
the bus value. -/
def alu (a b : Word) (subtractMode : Bool) : Word := if subtractMode then a - b else b + a

end Sys2Proof.Machine
end

