-- ==== Sys2Proof/Machine/Ops.lean ====
section
/-! DEFINITION. The rows of the dispatch table of spec/40_sequencer.md R65, each the whole effect of an edge that proceeds.
Every read is of the state before the edge (spec/00_scope.md R10). The core has no memory (spec/20_memory.md R40)
and neither takes nor returns from an exception (spec/60_exceptions.md R82, R86, R87), so there is no operation
for these. -/

namespace Sys2Proof.Machine

/-- What every edge that proceeds does before its row: the first-run gate opens (R61), the phase advances
(R63), the wires and `done` are reset (R64). `wires.clear` is among the wires (decision D5; log entry 8). -/
def beginEdge (s : State) : State :=
  { s with
    awaitingFirstRun := false
    phase := nextPhase s
    wires := Wires.off
    done := false }

/-- Phase 0, every opcode: fetch (R66). -/
def fetchEdge (s : State) : State :=
  { beginEdge s with
    wires := { Wires.off with irLoad := true }
    ir := fetchField s.din }

/-- A phase with nothing to do: no wire, no register, the phase held (R67, R68). -/
def holdEdge (s : State) : State := { beginEdge s with phase := s.phase }

/-- Phase 1 of `mv` (R70): register `src` onto the bus and into register `dest`, done, next phase 0. -/
def moveEdge (dest src : RegIdx) (s : State) : State :=
  { beginEdge s with
    wires := { Wires.off with regOut := onlyWire src, regLoad := onlyWire dest }
    regs := writeReg s.regs dest (regOperand src s)
    bus := regOperand src s
    done := true
    phase := .p0 }

/-- Phase 1 of `mvi` (R71): `DIN` onto the bus and into register `dest`, done, next phase 0. -/
def moveDataEdge (dest : RegIdx) (s : State) : State :=
  { beginEdge s with
    wires := { Wires.off with dataInOut := true, regLoad := onlyWire dest }
    regs := writeReg s.regs dest (dataOperand s)
    bus := dataOperand s
    done := true
    phase := .p0 }

/-- Phase 1 of `add` and `sub` (R72, R73): register `dest` onto the bus and into `A`. -/
def accumulateEdge (dest : RegIdx) (s : State) : State :=
  { beginEdge s with
    wires := { Wires.off with regOut := onlyWire dest, accumLoad := true }
    a := regOperand dest s
    bus := regOperand dest s }

/-- Phase 2 of `add` and `sub` (R72, R73): register `src` onto the bus, the sum or difference into `G`. -/
def aluEdge (subtractMode : Bool) (src : RegIdx) (s : State) : State :=
  { beginEdge s with
    wires := { Wires.off with
      regOut := onlyWire src
      aluResultLoad := true
      subtractMode := subtractMode
      aluResultWire := alu s.a (regOperand src s) subtractMode }
    g := alu s.a (regOperand src s) subtractMode
    bus := regOperand src s }

/-- Phase 3 of `add` and `sub` (R72, R73): `G` onto the bus and into register `dest`, done. -/
def writeBackEdge (dest : RegIdx) (s : State) : State :=
  { beginEdge s with
    wires := { Wires.off with aluResultOut := true, regLoad := onlyWire dest }
    regs := writeReg s.regs dest s.g
    bus := s.g
    done := true }

end Sys2Proof.Machine
end

