-- ==== Sys2Proof/Machine/Alu.lean ====
section
/-! DEFINITION. The ALU family (spec/42_alu.md): the columns `add` and `sub` of the dispatch table of
spec/40_sequencer.md R65. -/

namespace Sys2Proof.Machine

/-- `add R<dest> R<src>`: fetch, then `A <- R[dest]`, `G <- R[src] + A`, `R[dest] <- G` (R66, R72). -/
def execAdd (dest src : RegIdx) (s : State) : Host.Outcome State Fault Refusal :=
  match s.phase with
  | .p0 => .next (fetchEdge s)
  | .p1 => .next (accumulateEdge dest s)
  | .p2 => .next (aluEdge false src s)
  | .p3 => .next (writeBackEdge dest s)

/-- `sub R<dest> R<src>`: fetch, then `A <- R[dest]`, `G <- A - R[src]`, `R[dest] <- G` (R66, R73). -/
def execSub (dest src : RegIdx) (s : State) : Host.Outcome State Fault Refusal :=
  match s.phase with
  | .p0 => .next (fetchEdge s)
  | .p1 => .next (accumulateEdge dest s)
  | .p2 => .next (aluEdge true src s)
  | .p3 => .next (writeBackEdge dest s)

end Sys2Proof.Machine
end

