-- ==== Sys2Proof/Machine/Move.lean ====
section
/-! DEFINITION. The move family (spec/41_move.md): the columns `mv` and `mvi` of the dispatch table of
spec/40_sequencer.md R65. -/

namespace Sys2Proof.Machine

/-- `mv R<dest> R<src>`: fetch at phase 0 (R66), the copy at phase 1 (R70), held at phases 2 and 3 (R68,
decision D4; log entry 7). -/
def execMv (dest src : RegIdx) (s : State) : Host.Outcome State Fault Refusal :=
  match s.phase with
  | .p0 => .next (fetchEdge s)
  | .p1 => .next (moveEdge dest src s)
  | .p2 => .next (holdEdge s)
  | .p3 => .next (holdEdge s)

/-- `mvi R<dest>`: fetch at phase 0 (R66), `R[dest] <- DIN` at phase 1 (R71), held at phases 2 and 3 (R68,
decision D4; log entry 7). -/
def execMvi (dest : RegIdx) (s : State) : Host.Outcome State Fault Refusal :=
  match s.phase with
  | .p0 => .next (fetchEdge s)
  | .p1 => .next (moveDataEdge dest s)
  | .p2 => .next (holdEdge s)
  | .p3 => .next (holdEdge s)

end Sys2Proof.Machine
end

