-- ==== Sys2Proof/Machine/Undefined.lean ====
section
/-! DEFINITION. Opcodes 4 to 7: the last column of the dispatch table of spec/40_sequencer.md R65. -/

namespace Sys2Proof.Machine

/-- Opcodes 4 to 7: fetch at phase 0 (R66), the stall at phases 1 to 3 (R67, conflict C3; log entry 9). -/
def execUndef (s : State) : Host.Outcome State Fault Refusal :=
  match s.phase with
  | .p0 => .next (fetchEdge s)
  | .p1 => .next (holdEdge s)
  | .p2 => .next (holdEdge s)
  | .p3 => .next (holdEdge s)

end Sys2Proof.Machine
end

