-- ==== Sys2Proof/Machine/Dispatch.lean ====
section
/-! DEFINITION. One edge that proceeds, by the instruction held in IR: the columns of the dispatch table of
spec/40_sequencer.md R65, one arm per constructor of Instr. -/

namespace Sys2Proof.Machine

-- Each meaning holds its column's four cells, the fetch of phase 0 among them (log entry 11).
def exec (i : Instr) (s : State) : Host.Outcome State Fault Refusal :=
  match i with
  | .mv dest src => Sys2Proof.Machine.execMv dest src s
  | .mvi dest _ => Sys2Proof.Machine.execMvi dest s
  | .add dest src => Sys2Proof.Machine.execAdd dest src s
  | .sub dest src => Sys2Proof.Machine.execSub dest src s
  | .undef _ _ _ => Sys2Proof.Machine.execUndef s

end Sys2Proof.Machine
end

