-- ==== Sys2Proof/Machine/HostEvents.lean ====
section
/-! DEFINITION. The four input events (spec/00_scope.md R4): ClockEdge of spec/40_sequencer.md R60, and EnvironmentTick,
DataInputUpdate and HoverFocus of spec/44_host_events.md. -/

namespace Sys2Proof.Machine

/-- `ClockEdge` (R60): a guard returns the state unchanged; otherwise the row of the instruction in `IR`
before the edge. -/
def clockEdge (s : State) : Host.Outcome State Fault Refusal :=
  if edgeProceeds s then exec (decode s.ir) s else .next s

/-- `EnvironmentTick(env)` (R76). `clear` reads the `reset_n` just sampled (decision D5; log entry 8). -/
def environmentTick (env : Environment) (s : State) : State :=
  { s with
    run := env.run
    resetN := env.resetN
    registerRadix := env.registerRadix
    irRadix := env.irRadix
    wires := { s.wires with clear := clearSignal env.resetN s.done } }

/-- `DataInputUpdate(source)` (R77): `DIN` on success; on a rejection the kind goes back to the host. -/
def dataInputUpdate (source : DataSource) (s : State) : State :=
  match encodeSource source with
  | .ok w => { s with din := w }
  | .error kind => { s with reply := some kind }

/-- `HoverFocus(id)` (R80): the identity on the core's state. -/
def hoverFocus (_id : String) (s : State) : State := s

/-- One event applied to the whole state (R4). -/
def applyEvent (e : Event) (s : State) : Host.Outcome State Fault Refusal :=
  match e with
  | .environmentTick env => .next (environmentTick env s)
  | .clockEdge => clockEdge s
  | .dataInputUpdate source => .next (dataInputUpdate source s)
  | .hoverFocus id => .next (hoverFocus id s)

/-- The state as the core receives an event: `rest` is still to come, and nothing has been returned for
this event yet (log entries 1 and 3). -/
def receive (rest : List Event) (s : State) : State := { s with events := rest, reply := none }

/-- The state right after the fetch edge that took the data-input word `w` at phase 0 with `done` false
(R66), with a clock edge as the next event: the next step executes the fetched instruction (log
entry 2). -/
def loadedWith (w : Word) (s : State) : State :=
  { s with
    din := w
    ir := fetchField w
    phase := .p1
    done := false
    awaitingFirstRun := false
    events := .clockEdge :: s.events }

end Sys2Proof.Machine
end

