-- ==== Sys2Proof/Machine/Step.lean ====
section
/-! DEFINITION. One step of the machine: one input event (spec/00_scope.md R4). -/

namespace Sys2Proof.Machine

/-- The core receives the oldest event and applies it; "its state changes only when it receives one input
event" (R4), so with no event sent nothing changes (log entry 1). -/
def step (s : State) : Host.Outcome State Fault Refusal :=
  match s.events with
  | [] => .next s
  | e :: rest => applyEvent e (receive rest s)

/-- `s` with an opcode-table word fetched and a clock edge as the next event (log entry 2). -/
def State.withFetchWord (s : State) (nbits w : Nat) : State := loadedWith (tableWord nbits w) s

end Sys2Proof.Machine
end

