-- ==== Sys2Proof/Safety.lean ====
section
/-! DEFINITION. The terms in which statements speak about runs and states. Every state is safe (spec/44_host_events.md R81), so
what is defined here is what stays true of the states a run from power-on reaches (spec/10_state.md R30, R39), the
stall (spec/40_sequencer.md R67), and what a list of host events leads to. -/

namespace Sys2Proof.Machine

/-- A core before its first edge that proceeds: the startup state "except in `run`, `reset_n`, the
radices, `clear` and `DIN`" (R39(c)). -/
def Snapshot.AtStartup (s : Snapshot) : Prop :=
  s = { Snapshot.startup with
    run := s.run
    resetN := s.resetN
    registerRadix := s.registerRadix
    irRadix := s.irRadix
    din := s.din
    wires := { Wires.off with clear := s.wires.clear } }

/-- The clauses (a) to (d) of R39. -/
structure Snapshot.Consistent (s : Snapshot) : Prop where
  done_at_fetch : s.done = true → s.phase = .p0
  late_phase_opcode :
    s.phase = .p2 ∨ s.phase = .p3 → opcodeField s.ir = 2 ∨ opcodeField s.ir = 3
  awaiting_startup : s.awaitingFirstRun = true → s.AtStartup
  accumOut_off : s.wires.accumOut = false

/-- The wires "record what the datapath did on the last edge that proceeded" (R30): a wire that is set
names the register, `A` or `G` that holds the value on the bus or on `alu_result_wire`. -/
structure Snapshot.WiresRecord (s : Snapshot) : Prop where
  regOut_bus : ∀ i : RegIdx, s.wires.regOut[i.toNat]'i.isLt = true → readReg s.regs i = s.bus
  regLoad_bus : ∀ i : RegIdx, s.wires.regLoad[i.toNat]'i.isLt = true → readReg s.regs i = s.bus
  accumLoad_bus : s.wires.accumLoad = true → s.a = s.bus
  aluResultOut_bus : s.wires.aluResultOut = true → s.g = s.bus
  aluResultLoad_wire : s.wires.aluResultLoad = true → s.g = s.wires.aluResultWire
  aluResultWire_zero : s.wires.aluResultLoad = false → s.wires.aluResultWire = 0
  subtract_loads : s.wires.subtractMode = true → s.wires.aluResultLoad = true
  regOut_one : ∀ i j : RegIdx, s.wires.regOut[i.toNat]'i.isLt = true →
    s.wires.regOut[j.toNat]'j.isLt = true → i = j
  regLoad_one : ∀ i j : RegIdx, s.wires.regLoad[i.toNat]'i.isLt = true →
    s.wires.regLoad[j.toNat]'j.isLt = true → i = j
  done_regLoad : s.done = true ↔ ∃ i : RegIdx, s.wires.regLoad[i.toNat]'i.isLt = true

/-- A core past the fetch of an undefined opcode (R67). -/
structure Snapshot.Stalled (s : Snapshot) : Prop where
  phase_execute : s.phase ≠ .p0
  opcode_undefined : s.ir.getLsbD 8 = true
  not_done : s.done = false

/-- An event that is no clock edge: a tick, a data-input update or a hover. -/
def Event.quiet : Event → Bool
  | .clockEdge => false
  | .environmentTick _ => true
  | .dataInputUpdate _ => true
  | .hoverFocus _ => true

/-- Every event of the list is no clock edge. -/
abbrev Quiet (evs : List Event) : Prop := ∀ e ∈ evs, Event.quiet e = true

/-- The outcome of sending exactly the events `evs`, in this order, to a core in state `s`: one `step` for
each of them, the queue holding those not yet received (R4). -/
def afterEvents : List Event → State → Host.Outcome State Fault Refusal
  | [], s => .next { s with events := [] }
  | e :: rest, s =>
    match step { s with events := e :: rest } with
    | .next t => afterEvents rest t
    | .fault r => .fault r
    | .refused r => .refused r

end Sys2Proof.Machine
end

