-- ==== Sys2Proof/Certificates/Slice0/Obligations.lean ====
section
/-! DEFINITION. The statements about the ACS core. A statement that describes an edge exactly leaves the display
wire `clear` open (`clear := t.wires.clear`): that an edge resets it is decision D5 of the spec, and
ProceedingEdgeResetsClear states it. -/

open Sys2Proof Sys2Proof.Machine

/-! ### Encoding -/

/-- R51, all of it: the three fields as the spec's shifts and masks, the instruction they name, and that the
sequencer takes them from the `IR` held before the edge. -/
def Obligations.FieldsOfEveryWord : Prop :=
  (∀ ir : IrWord,
    (opcodeField ir).toNat = ir.toNat >>> 6 ∧
    (destField ir).toNat = (ir.toNat &&& 0b111000) >>> 3 ∧
    (srcField ir).toNat = ir.toNat &&& 0b111 ∧
    decode ir =
      if ir.toNat >>> 6 = 0 then .mv (destField ir) (srcField ir)
      else if ir.toNat >>> 6 = 1 then .mvi (destField ir) (srcField ir)
      else if ir.toNat >>> 6 = 2 then .add (destField ir) (srcField ir)
      else if ir.toNat >>> 6 = 3 then .sub (destField ir) (srcField ir)
      else .undef (opcodeField ir) (destField ir) (srcField ir)) ∧
  (∀ (s : State) (rest : List Event), s.events = .clockEdge :: rest → edgeProceeds s = true →
    step s = exec (decode s.ir) (receive rest s))

/-- Decode inverts the encoder for every well-formed instruction, whatever stands in `DIN[6:0]` (R50, R51,
R54, R57). -/
def Obligations.DecodeInvertsEncode : Prop :=
  ∀ (i : Instr) (low7 : BitVec 7), i.WellFormed →
    decodeWord (encode i ||| low7.setWidth 16) = i

/-- Every 9-bit word is the encoding of the well-formed instruction it decodes to: the decoder drops no
bit of `IR` (R50 to R52). -/
def Obligations.EncodeInvertsDecode : Prop :=
  ∀ ir : IrWord, (decode ir).WellFormed ∧ encodeIr (decode ir) = ir

/-- The base words and the field weights of R57, and `0x0E80` for `mv R3 R5`. -/
def Obligations.EncodedWordValues : Prop :=
  (∀ d r : RegIdx,
    (encode (.mv d r)).toNat = 0x0000 + d.toNat * 0x0400 + r.toNat * 0x0080 ∧
    (encode (.mvi d 0)).toNat = 0x2000 + d.toNat * 0x0400 ∧
    (encode (.add d r)).toNat = 0x4000 + d.toNat * 0x0400 + r.toNat * 0x0080 ∧
    (encode (.sub d r)).toNat = 0x6000 + d.toNat * 0x0400 + r.toNat * 0x0080) ∧
  encode (.mv 3 5) = 0x0E80

/-- Words written out bit by bit from the table `opcode | dest | src | low7` of R50 decode to the
instructions they stand for; the last three differ from an encoder's word in ignored bits or carry an
undefined opcode. -/
def Obligations.SampleWordsDecode : Prop :=
  decodeWord 0b000_011_101_0000000 = .mv 3 5 ∧
  decodeWord 0b001_010_000_0000000 = .mvi 2 0 ∧
  decodeWord 0b010_000_001_0000000 = .add 0 1 ∧
  decodeWord 0b011_010_011_0000000 = .sub 2 3 ∧
  decodeWord 0b000_011_101_1111111 = .mv 3 5 ∧
  decodeWord 0b101_000_000_0000000 = .undef 5 0 0 ∧
  decodeWord 0b111_111_111_1111111 = .undef 7 7 7

/-! ### Steps and events -/

/-- Without an event the core's state does not change (R4). That `step` is then the identity is the model's
choice (log entry 1). -/
def Obligations.NoEventNoChange : Prop :=
  ∀ s : State, s.events = [] → step s = .next s

/-- Every step answers a next state (R82), and a rejected update leaves the Machine State as it was. -/
def Obligations.StepNeverStops : Prop :=
  (∀ s : State, ∃ t : State, step s = .next t) ∧
  (∀ (s t : State) (rest : List Event) (source : DataSource) (kind : Rejection),
    s.events = .dataInputUpdate source :: rest → encodeSource source = .error kind →
    step s = .next t → t.toSnapshot = s.toSnapshot ∧ t.reply = some kind)

/-- A step whose event is a clock edge that proceeds runs the instruction decoded from `IR` (R60): the event
leaves the queue and the meaning of the instruction gives the next state. -/
def Obligations.StepRunsHeldInstruction : Prop :=
  ∀ (s : State) (rest : List Event) (i : Instr),
    s.events = .clockEdge :: rest → edgeProceeds s = true → decode s.ir = i → i.WellFormed →
    step s = exec i { s with events := rest, reply := none }

/-- When an edge proceeds (R60): `run`, or neither done nor awaiting the first run; an edge that a guard
stops changes no field. -/
def Obligations.GuardedEdgeChangesNothing : Prop :=
  ∀ (s : State) (rest : List Event), s.events = .clockEdge :: rest →
    (edgeProceeds s = true ↔ s.run = true ∨ (s.done = false ∧ s.awaitingFirstRun = false)) ∧
    (s.run = false → s.done = true ∨ s.awaitingFirstRun = true →
      step s = .next { s with events := rest, reply := none })

/-- EnvironmentTick writes its five fields and nothing else (R76). That `clear` takes the `reset_n` just
sampled is decision D5 of the spec (log entry 8). -/
def Obligations.EnvironmentTickSamplesInputs : Prop :=
  ∀ (s : State) (env : Environment) (rest : List Event),
    s.events = .environmentTick env :: rest →
    step s = .next { s with
      run := env.run
      resetN := env.resetN
      registerRadix := env.registerRadix
      irRadix := env.irRadix
      wires := { s.wires with clear := env.resetN || s.done }
      events := rest
      reply := none }

/-- R80: HoverFocus has no effect on any field of the Machine State. -/
def Obligations.HoverFocusIsIdentity : Prop :=
  ∀ (s : State) (id : String) (rest : List Event), s.events = .hoverFocus id :: rest →
    ∃ t : State, step s = .next t ∧ t.toSnapshot = s.toSnapshot

/-- A data-input update sends a mnemonic to the mnemonic encoder and a literal, with the radix of the event, to the
literal encoder, and writes `DIN` alone, or leaves the Machine State and returns the rejection (R77). Accepting it
in every phase and gate state is decision D11 of the spec (log entry 15), the value `reject` of `LITERAL_OVERFLOW`
is D6 and the event's radix C9 (log entry 4). That the rejection is kept in `reply` is the model's choice (log
entry 3). -/
def Obligations.DataInputUpdateWritesOnlyDin : Prop :=
  (∀ text : String, encodeSource (.mnemonic text) = encodeMnemonic text) ∧
  (∀ (text : String) (b : Radix), encodeSource (.literal text b) = encodeLiteral .reject text b) ∧
  (∀ (s : State) (source : DataSource) (rest : List Event),
    s.events = .dataInputUpdate source :: rest →
    (∀ w, encodeSource source = .ok w →
      step s = .next { s with din := w, events := rest, reply := none }) ∧
    (∀ kind, encodeSource source = .error kind →
      step s = .next { s with events := rest, reply := some kind }))

/-- What no clock edge does, the host cannot do: an event other than a clock edge leaves every field but
`run`, `reset_n`, the radices, `clear` and `DIN` (R76, R77, R80, R81). -/
def Obligations.HostEventsLeaveExecution : Prop :=
  ∀ (evs : List Event) (s : State), Quiet evs →
    ∃ t : State, afterEvents evs s = .next t ∧
      t.toSnapshot = { s.toSnapshot with
        run := t.run
        resetN := t.resetN
        registerRadix := t.registerRadix
        irRadix := t.irRadix
        din := t.din
        wires := { s.wires with clear := t.wires.clear } }

/-! ### The codec of the host's updates -/

/-- R78, with the four forms of R56 written out: the encoder accepts exactly those texts, writes the word of
their fields (low 7 bits zero, opcode 0 to 3), and rejects every other text. -/
def Obligations.MnemonicEncoderAcceptsFourForms : Prop :=
  (∀ (text : String) (w : Word), encodeMnemonic text = .ok w ↔
    ∃ i j : RegIdx,
      (text.toList = "mv R".toList ++ [Nat.digitChar i.toNat] ++ " R".toList ++ [Nat.digitChar j.toNat] ∧
        w.toNat = (0 <<< 6 ||| i.toNat <<< 3 ||| j.toNat) <<< 7) ∨
      (text.toList = "mvi R".toList ++ [Nat.digitChar i.toNat] ∧
        w.toNat = (1 <<< 6 ||| i.toNat <<< 3 ||| 0) <<< 7) ∨
      (text.toList = "add R".toList ++ [Nat.digitChar i.toNat] ++ " R".toList ++ [Nat.digitChar j.toNat] ∧
        w.toNat = (2 <<< 6 ||| i.toNat <<< 3 ||| j.toNat) <<< 7) ∨
      (text.toList = "sub R".toList ++ [Nat.digitChar i.toNat] ++ " R".toList ++ [Nat.digitChar j.toNat] ∧
        w.toNat = (3 <<< 6 ||| i.toNat <<< 3 ||| j.toNat) <<< 7)) ∧
  (∀ text : String, (∀ w, encodeMnemonic text ≠ .ok w) →
    encodeMnemonic text = .error .malformedMnemonic) ∧
  (∀ (text : String) (w : Word), encodeMnemonic text = .ok w →
    w.toNat % 2 ^ 7 = 0 ∧ w.toNat / 2 ^ 13 ≤ 3)

/-- The literal path (R58, R79): an empty text or a character outside the radix's digits is rejected; otherwise
the digits' unsigned value is stored if it fits 16 bits, and `LITERAL_OVERFLOW` decides if it does not. The
empty text and the 16-bit limit are decision D6 of the spec (log entry 4). -/
def Obligations.LiteralEncoderStoresDigitValue : Prop :=
  (∀ (overflow : LiteralOverflow) (text : String) (b : Radix),
    text.toList = [] ∨ (∃ c ∈ text.toList, c ∉ "0123456789ABCDEF".toList.take b.base) →
    encodeLiteral overflow text b = .error .invalidNumericLiteral) ∧
  (∀ (overflow : LiteralOverflow) (text : String) (b : Radix) (digits : List Nat), digits ≠ [] →
    (∀ d ∈ digits, d < b.base) →
    text.toList.map some = digits.map (fun d => "0123456789ABCDEF".toList[d]?) →
    encodeLiteral overflow text b =
      if Nat.ofDigits b.base digits.reverse < 2 ^ 16 then
        .ok (BitVec.ofNat 16 (Nat.ofDigits b.base digits.reverse))
      else if overflow = .wrap then
        .ok (BitVec.ofNat 16 (Nat.ofDigits b.base digits.reverse % 2 ^ 16))
      else .error .invalidNumericLiteral)

/-- The literal path "can write any 16-bit word" (R79), in every radix. -/
def Obligations.LiteralsReachEveryWord : Prop :=
  ∀ (overflow : LiteralOverflow) (b : Radix) (w : Word),
    ∃ text : String, encodeLiteral overflow text b = .ok w

/-- An undefined opcode enters `DIN` only through the literal path: an update that leaves `DIN[15]` set where it
was clear carried a literal (R78, R99). -/
def Obligations.UndefinedOpcodeOnlyFromLiteral : Prop :=
  ∀ (s t : State), step s = .next t → s.din.getLsbD 15 = false → t.din.getLsbD 15 = true →
    ∃ (text : String) (b : Radix) (rest : List Event),
      s.events = .dataInputUpdate (.literal text b) :: rest

/-! ### One edge of each instruction -/

/-- R66: at phase 0 an edge fetches, whatever instruction `IR` held. -/
def Obligations.FetchAtPhaseZero : Prop :=
  ∀ (i : Instr) (s : State), s.phase = .p0 →
    ∃ t : State, exec i s = .next t ∧
      t = { s with
        awaitingFirstRun := false
        wires := { Wires.off with irLoad := true, clear := t.wires.clear }
        ir := s.din.extractLsb' 7 9
        done := false
        phase := if s.done = true then .p0 else .p1 }

/-- R70: phase 1 of `mv`, with every field it leaves alone. -/
def Obligations.MvCopiesRegister : Prop :=
  ∀ (d r : RegIdx) (s : State), s.phase = .p1 →
    ∃ t : State, exec (.mv d r) s = .next t ∧
      t = { s with
        awaitingFirstRun := false
        wires := { Wires.off with
          regOut := onlyWire r, regLoad := onlyWire d, clear := t.wires.clear }
        regs := writeReg s.regs d (readReg s.regs r)
        bus := readReg s.regs r
        done := true
        phase := .p0 }

/-- R71: phase 1 of `mvi` stores the whole of `DIN` as it stands at this edge, whatever `src` is; fetched and
executed with no update between, it stores its own word. -/
def Obligations.MviStoresDataInput : Prop :=
  (∀ (d r : RegIdx) (s : State), s.phase = .p1 →
    ∃ t : State, exec (.mvi d r) s = .next t ∧
      t = { s with
        awaitingFirstRun := false
        wires := { Wires.off with
          dataInOut := true, regLoad := onlyWire d, clear := t.wires.clear }
        regs := writeReg s.regs d s.din
        bus := s.din
        done := true
        phase := .p0 }) ∧
  (∀ (d r : RegIdx) (s : State), s.phase = .p0 → s.done = false → edgeProceeds s = true →
    decodeWord s.din = .mvi d r →
    ∃ t : State, afterEvents [.clockEdge, .clockEdge] s = .next t ∧
      t.regs = writeReg s.regs d s.din ∧ t.done = true)

/-- The three execute phases of `add` (R72), with every field each leaves alone. The sum is taken modulo 2^16:
decision D2 of the spec (log entry 6). -/
def Obligations.AddPhases : Prop :=
  ∀ (d r : RegIdx) (s : State),
    (s.phase = .p1 → ∃ t : State, exec (.add d r) s = .next t ∧
      t = { s with
        awaitingFirstRun := false
        wires := { Wires.off with regOut := onlyWire d, accumLoad := true, clear := t.wires.clear }
        a := readReg s.regs d
        bus := readReg s.regs d
        done := false
        phase := if s.done = true then .p0 else .p2 }) ∧
    (s.phase = .p2 → ∃ t : State, exec (.add d r) s = .next t ∧
      t = { s with
        awaitingFirstRun := false
        wires := { Wires.off with
          regOut := onlyWire r
          aluResultLoad := true
          aluResultWire := BitVec.ofNat 16 ((readReg s.regs r).toNat + s.a.toNat)
          clear := t.wires.clear }
        g := BitVec.ofNat 16 ((readReg s.regs r).toNat + s.a.toNat)
        bus := readReg s.regs r
        done := false
        phase := if s.done = true then .p0 else .p3 }) ∧
    (s.phase = .p3 → ∃ t : State, exec (.add d r) s = .next t ∧
      t = { s with
        awaitingFirstRun := false
        wires := { Wires.off with
          aluResultOut := true, regLoad := onlyWire d, clear := t.wires.clear }
        regs := writeReg s.regs d s.g
        bus := s.g
        done := true
        phase := .p0 })

/-- The three execute phases of `sub` (R73), with every field each leaves alone. The difference, accumulator
minus `R[src]`, is taken modulo 2^16: decision D2 of the spec (log entry 6). -/
def Obligations.SubPhases : Prop :=
  ∀ (d r : RegIdx) (s : State),
    (s.phase = .p1 → ∃ t : State, exec (.sub d r) s = .next t ∧
      t = { s with
        awaitingFirstRun := false
        wires := { Wires.off with regOut := onlyWire d, accumLoad := true, clear := t.wires.clear }
        a := readReg s.regs d
        bus := readReg s.regs d
        done := false
        phase := if s.done = true then .p0 else .p2 }) ∧
    (s.phase = .p2 → ∃ t : State, exec (.sub d r) s = .next t ∧
      t = { s with
        awaitingFirstRun := false
        wires := { Wires.off with
          regOut := onlyWire r
          aluResultLoad := true
          subtractMode := true
          aluResultWire := BitVec.ofInt 16 ((s.a.toNat : Int) - (readReg s.regs r).toNat)
          clear := t.wires.clear }
        g := BitVec.ofInt 16 ((s.a.toNat : Int) - (readReg s.regs r).toNat)
        bus := readReg s.regs r
        done := false
        phase := if s.done = true then .p0 else .p3 }) ∧
    (s.phase = .p3 → ∃ t : State, exec (.sub d r) s = .next t ∧
      t = { s with
        awaitingFirstRun := false
        wires := { Wires.off with
          aluResultOut := true, regLoad := onlyWire d, clear := t.wires.clear }
        regs := writeReg s.regs d s.g
        bus := s.g
        done := true
        phase := .p0 })

/-- R67: opcodes 4 to 7 past the fetch. One edge asserts no wire, writes no register and holds the phase; with
the gate open it proceeds whatever `run` is; once the wires are off it maps the state to itself; and no
list of events, clock edges, ticks or `DIN` writes, ends the stall or changes what it holds. It is entered at
phase 1 by the fetch of a word with bit 15 set. Holding the phase is the spec's resolution C3 and decision D9 (log
entry 9); that power-on alone ends the stall is decision D7 (log entry 10). -/
def Obligations.UndefinedOpcodeStalls : Prop :=
  (∀ (o : Opcode) (d r : RegIdx) (s : State), s.phase ≠ .p0 →
    ∃ t : State, exec (.undef o d r) s = .next t ∧
      t = { s with
        awaitingFirstRun := false
        wires := { Wires.off with clear := t.wires.clear }
        done := false }) ∧
  (∀ (s : State) (rest : List Event), s.Stalled → s.awaitingFirstRun = false →
    s.events = .clockEdge :: rest →
    ∃ t : State, step s = .next t ∧
      t = { s with
        wires := { Wires.off with clear := t.wires.clear }
        events := rest
        reply := none }) ∧
  (∀ (o : Opcode) (d r : RegIdx) (s : State), s.phase ≠ .p0 → s.awaitingFirstRun = false →
    s.done = false → s.wires = Wires.off → exec (.undef o d r) s = .next s) ∧
  (∀ (evs : List Event) (s : State), s.Stalled →
    ∃ t : State, afterEvents evs s = .next t ∧ t.Stalled ∧
      t.phase = s.phase ∧ t.ir = s.ir ∧ t.regs = s.regs ∧ t.a = s.a ∧ t.g = s.g ∧ t.bus = s.bus) ∧
  (∀ s : State, s.phase = .p0 → s.done = false → edgeProceeds s = true → s.din.getLsbD 15 = true →
    ∃ t : State, afterEvents [.clockEdge] s = .next t ∧ t.Stalled ∧ t.phase = .p1)

/-- `mv` and `mvi` at phase 2 or 3: held like a stall (R68). This is decision D4 of the spec (log entry 7). -/
def Obligations.MovesHoldAtLatePhases : Prop :=
  ∀ (d r : RegIdx) (s : State), s.phase = .p2 ∨ s.phase = .p3 →
    (∃ t : State, exec (.mv d r) s = .next t ∧
      t = { s with
        awaitingFirstRun := false
        wires := { Wires.off with clear := t.wires.clear }
        done := false }) ∧
    (∃ t : State, exec (.mvi d r) s = .next t ∧
      t = { s with
        awaitingFirstRun := false
        wires := { Wires.off with clear := t.wires.clear }
        done := false })

/-- Every edge that proceeds resets `clear` with the other wires (R64). This is decision D5 of the spec (log
entry 8). -/
def Obligations.ProceedingEdgeResetsClear : Prop :=
  ∀ (i : Instr) (s : State), ∃ t : State, exec i s = .next t ∧ t.wires.clear = false

/-! ### Who writes each field -/

/-- The phase counter over a whole step (R27, R63): only an edge that proceeds writes it, by the phase-advance
rule and its overrides. Holding the phase for opcodes 4 to 7 past the fetch is the spec's resolution C3 and decision
D9 (log entry 9); holding it for opcodes 0 and 1 at phases 2 and 3 is decision D4 (log entry 7). -/
def Obligations.PhaseAdvanceRule : Prop :=
  ∀ s t : State, step s = .next t →
    t.phase.toNat =
      if s.events.head? = some .clockEdge ∧ edgeProceeds s = true then
        if s.phase.toNat = 1 ∧ (opcodeField s.ir).toNat ≤ 1 then 0
        else if s.phase.toNat ≠ 0 ∧ 4 ≤ (opcodeField s.ir).toNat then s.phase.toNat
        else if 2 ≤ s.phase.toNat ∧ (opcodeField s.ir).toNat ≤ 1 then s.phase.toNat
        else if s.done = true then 0
        else (s.phase.toNat + 1) % 4
      else s.phase.toNat

/-- The completion flag over a whole step (R28): an edge that proceeds sets it exactly in the last phase of an
instruction. Its startup value is decision D3 of the spec (log entry 5). -/
def Obligations.DoneFlagRule : Prop :=
  (∀ s t : State, step s = .next t →
    (t.done = true ↔
      if s.events.head? = some .clockEdge ∧ edgeProceeds s = true then
        (s.phase = .p1 ∧ (opcodeField s.ir = 0 ∨ opcodeField s.ir = 1)) ∨
        (s.phase = .p3 ∧ (opcodeField s.ir = 2 ∨ opcodeField s.ir = 3))
      else s.done = true)) ∧
  State.reset.done = false

/-- Every general register over a whole step (R21): only the `dest` register of `mv`, `mvi`, `add` or `sub` in
its last phase changes. -/
def Obligations.GeneralRegisterRule : Prop :=
  ∀ (s t : State) (k : RegIdx), step s = .next t →
    readReg t.regs k =
      if s.events.head? = some .clockEdge ∧ edgeProceeds s = true ∧ k = destField s.ir then
        if s.phase = .p1 ∧ opcodeField s.ir = 0 then readReg s.regs (srcField s.ir)
        else if s.phase = .p1 ∧ opcodeField s.ir = 1 then s.din
        else if s.phase = .p3 ∧ (opcodeField s.ir = 2 ∨ opcodeField s.ir = 3) then s.g
        else readReg s.regs k
      else readReg s.regs k

/-- R22: `A` is zero at startup, written only in phase 1 of `add` and `sub`, read only in phase 2 of `add` and
`sub` for `G` and the ALU wire, and never drives the bus (`accum_out` is never asserted, and the bus does
not depend on `A`). -/
def Obligations.AccumulatorRule : Prop :=
  State.reset.a = 0 ∧
  (∀ s t : State, step s = .next t →
    t.a = (if s.events.head? = some .clockEdge ∧ edgeProceeds s = true ∧ s.phase = .p1 ∧
        (opcodeField s.ir = 2 ∨ opcodeField s.ir = 3) then readReg s.regs (destField s.ir) else s.a) ∧
    (s.wires.accumOut = false → t.wires.accumOut = false)) ∧
  (∀ (s t : State) (x : Word), step s = .next t →
    ∃ y g w : Word,
      step { s with a := x } =
        .next { t with a := y, g := g, wires := { t.wires with aluResultWire := w } } ∧
      (¬ (s.events.head? = some .clockEdge ∧ edgeProceeds s = true ∧ s.phase = .p2 ∧
          (opcodeField s.ir = 2 ∨ opcodeField s.ir = 3)) →
        g = t.g ∧ w = t.wires.aluResultWire))

/-- `G` over a whole step (R23): written only in phase 2 of `add` and `sub`, read only in phase 3 of `add` and
`sub`. The sum and the difference are modulo 2^16: decision D2 of the spec (log entry 6). -/
def Obligations.AluResultRule : Prop :=
  State.reset.g = 0 ∧
  (∀ s t : State, step s = .next t →
    t.g =
      if s.events.head? = some .clockEdge ∧ edgeProceeds s = true ∧ s.phase = .p2 ∧
        opcodeField s.ir = 2 then
        BitVec.ofNat 16 ((readReg s.regs (srcField s.ir)).toNat + s.a.toNat)
      else if s.events.head? = some .clockEdge ∧ edgeProceeds s = true ∧ s.phase = .p2 ∧
        opcodeField s.ir = 3 then
        BitVec.ofInt 16 ((s.a.toNat : Int) - (readReg s.regs (srcField s.ir)).toNat)
      else s.g) ∧
  (∀ (s t : State) (x : Word), step s = .next t →
    ¬ (s.events.head? = some .clockEdge ∧ edgeProceeds s = true ∧ s.phase = .p3 ∧
      (opcodeField s.ir = 2 ∨ opcodeField s.ir = 3)) →
    ∃ y : Word, step { s with g := x } = .next { t with g := y })

/-- R24: `IR` is zero at startup, which decodes as `mv R0 R0`; only the phase-0 fetch writes it; and only the
dispatch of phases 1 to 3 reads it, through the decode. -/
def Obligations.InstructionRegisterRule : Prop :=
  State.reset.ir = 0 ∧ decode State.reset.ir = .mv 0 0 ∧
  (∀ s t : State, step s = .next t →
    t.ir =
      if s.events.head? = some .clockEdge ∧ edgeProceeds s = true ∧ s.phase = .p0 then
        s.din.extractLsb' 7 9
      else s.ir) ∧
  (∀ (s t : State) (x : IrWord), step s = .next t →
    ¬ (s.events.head? = some .clockEdge ∧ edgeProceeds s = true ∧ s.phase ≠ .p0) →
    ∃ y : IrWord, step { s with ir := x } = .next { t with ir := y }) ∧
  (∀ (s : State) (rest : List Event), s.events = .clockEdge :: rest → edgeProceeds s = true →
    step s = exec (decode s.ir) (receive rest s))

/-- R26: `DIN` is zero at startup; only a data-input update that succeeds writes it, and writes nothing else; it
is read by the fetch, bits 15 to 7 only, and by phase 1 of `mvi`, whole. That such an update is accepted in every
phase and gate state is decision D11 of the spec (log entry 15). -/
def Obligations.DataInputRule : Prop :=
  State.reset.din = 0 ∧
  (∀ s t : State, step s = .next t →
    (∀ (source : DataSource) (rest : List Event) (w : Word),
      s.events = .dataInputUpdate source :: rest → encodeSource source = .ok w →
      t.toSnapshot = { s.toSnapshot with din := w }) ∧
    ((∀ (source : DataSource) (rest : List Event) (w : Word),
      s.events = .dataInputUpdate source :: rest → encodeSource source ≠ .ok w) → t.din = s.din)) ∧
  (∀ (s t : State) (x : Word), step s = .next t →
    ¬ (s.events.head? = some .clockEdge ∧ edgeProceeds s = true ∧ s.phase = .p1 ∧
      opcodeField s.ir = 1) →
    (s.events.head? = some .clockEdge ∧ edgeProceeds s = true ∧ s.phase = .p0 →
      x.extractLsb' 7 9 = s.din.extractLsb' 7 9) →
    ∃ y : Word, step { s with din := x } = .next { t with din := y })

/-- R29: the first-run gate is closed at startup; while it is closed and `run` is false an edge changes nothing;
the first edge with `run` true opens it and executes; nothing closes it again. -/
def Obligations.FirstRunGateRule : Prop :=
  State.reset.awaitingFirstRun = true ∧
  (∀ s t : State, step s = .next t →
    (t.awaitingFirstRun = true ↔
      s.awaitingFirstRun = true ∧ ¬ (s.events.head? = some .clockEdge ∧ s.run = true))) ∧
  (∀ (s : State) (rest : List Event), s.events = .clockEdge :: rest → s.awaitingFirstRun = true →
    (s.run = false → step s = .next (receive rest s)) ∧
    (s.run = true → step s = exec (decode s.ir) (receive rest s)))

/-- The bus over a whole step (R33): only the rows that drive it write it; the fetch and a held phase do not.
Its startup value is decision D3 of the spec (log entry 5). -/
def Obligations.BusRule : Prop :=
  ∀ s t : State, step s = .next t →
    t.bus =
      if s.events.head? = some .clockEdge ∧ edgeProceeds s = true then
        if s.phase = .p1 ∧ opcodeField s.ir = 0 then readReg s.regs (srcField s.ir)
        else if s.phase = .p1 ∧ opcodeField s.ir = 1 then s.din
        else if s.phase = .p1 ∧ (opcodeField s.ir = 2 ∨ opcodeField s.ir = 3) then
          readReg s.regs (destField s.ir)
        else if s.phase = .p2 ∧ (opcodeField s.ir = 2 ∨ opcodeField s.ir = 3) then
          readReg s.regs (srcField s.ir)
        else if s.phase = .p3 ∧ (opcodeField s.ir = 2 ∨ opcodeField s.ir = 3) then s.g
        else s.bus
      else s.bus

/-- Only an EnvironmentTick writes `run`, `reset_n` and the radices (R34, R35). -/
def Obligations.EnvironmentInputsRule : Prop :=
  ∀ s t : State, step s = .next t →
    (∀ env, s.events.head? ≠ some (.environmentTick env)) →
    t.run = s.run ∧ t.resetN = s.resetN ∧ t.registerRadix = s.registerRadix ∧ t.irRadix = s.irRadix

/-- No rule reads the wires, `bus`, `reset_n` or the radices (R30, R33, R34, R35), so `reset_n` and `clear` reset
nothing (R95): two states that differ only there still differ only there after a step. That neither resets anything
is the spec's choice, decision D7 and resolution C10 (log entry 10). -/
def Obligations.DisplayStateIsNeverRead : Prop :=
  ∀ (s t : State) (wires : Wires) (bus : Word) (resetN : Bool) (regRadix irRadix : Radix),
    step s = .next t →
    ∃ (wires' : Wires) (bus' : Word) (resetN' : Bool) (regRadix' irRadix' : Radix),
      step { s with
        wires := wires, bus := bus, resetN := resetN, registerRadix := regRadix, irRadix := irRadix } =
      .next { t with
        wires := wires', bus := bus', resetN := resetN', registerRadix := regRadix',
        irRadix := irRadix' }

/-! ### Startup and invariants -/

/-- The startup state of R37, field by field, with the eleven wires of R30 written out: `Wires.off`, which the
per-edge reset (R64) writes too, is false in every wire and zero in `alu_result_wire`. The rows for `done`, the wires, `bus`, `run`, `reset_n` and the
radices are decision D3 of the spec (log entry 5); the empty queue and the empty reply are the model's own
(log entries 1 and 3). -/
def Obligations.PowerOnState : Prop :=
  (∀ k : RegIdx, readReg State.reset.regs k = 0) ∧
  State.reset.a = 0 ∧ State.reset.g = 0 ∧ State.reset.ir = 0 ∧ State.reset.din = 0 ∧
  State.reset.phase.toNat = 0 ∧ State.reset.awaitingFirstRun = true ∧
  State.reset.done = false ∧ State.reset.bus = 0 ∧
  State.reset.wires = Wires.off ∧
  Wires.off.irLoad = false ∧ Wires.off.accumLoad = false ∧ Wires.off.aluResultLoad = false ∧
  (∀ k : RegIdx, Wires.off.regLoad[k.toNat]'k.isLt = false) ∧
  (∀ k : RegIdx, Wires.off.regOut[k.toNat]'k.isLt = false) ∧
  Wires.off.accumOut = false ∧ Wires.off.dataInOut = false ∧ Wires.off.aluResultOut = false ∧
  Wires.off.subtractMode = false ∧ Wires.off.aluResultWire = 0 ∧ Wires.off.clear = false ∧
  State.reset.run = false ∧ State.reset.resetN = false ∧
  State.reset.registerRadix.base = 10 ∧ State.reset.irRadix.base = 10 ∧
  State.reset.events = [] ∧ State.reset.reply = none

/-- The invariants of R39 and R30 hold right after power-on. -/
def Obligations.PowerOnStateIsConsistent : Prop :=
  State.reset.Consistent ∧ State.reset.WiresRecord

/-- Every step keeps R39 (a) to (d), whatever event it receives. Clause (b) rests on the phase held by opcodes 4 to 7,
the spec's resolution C3 (log entry 9). -/
def Obligations.StepKeepsConsistent : Prop :=
  ∀ s t : State, s.Consistent → step s = .next t → t.Consistent

/-- Every step keeps the wires a record of the datapath (R30): a set wire names a register, `A` or `G` that
holds the driven value, at most one register wire of a kind is set, and `done` is true exactly when a
register was loaded. -/
def Obligations.StepKeepsWiresRecord : Prop :=
  ∀ s t : State, s.WiresRecord → step s = .next t → t.WiresRecord

/-! ### Whole instructions, with the host's other events in between -/

/-- `mv` takes two edges from phase 0 (R70, R102), whatever ticks, updates and hovers come between them (R81). That an
update may come in any phase is decision D11 of the spec (log entry 15). -/
def Obligations.MvCompletesInTwoEdges : Prop :=
  ∀ (d r : RegIdx) (s : State) (q : List Event), Quiet q →
    s.phase = .p0 → s.done = false → edgeProceeds s = true → decodeWord s.din = .mv d r →
    ∃ t : State, afterEvents (.clockEdge :: (q ++ [.clockEdge])) s = .next t ∧
      t.regs = writeReg s.regs d (readReg s.regs r) ∧ t.bus = readReg s.regs r ∧
      t.a = s.a ∧ t.g = s.g ∧ t.done = true ∧ t.phase = .p0

/-- The immediate window of `mvi` (R98): the register takes the word of the last successful update between the
fetch edge and the next edge. That an update may come in any phase is decision D11 of the spec (log entry 15). -/
def Obligations.MviTakesLastUpdate : Prop :=
  ∀ (d r : RegIdx) (s : State) (q q' : List Event) (source : DataSource) (x : Word),
    Quiet q → Quiet q' →
    (∀ e ∈ q', ∀ src' w, e = .dataInputUpdate src' → encodeSource src' ≠ .ok w) →
    encodeSource source = .ok x →
    s.phase = .p0 → s.done = false → edgeProceeds s = true → decodeWord s.din = .mvi d r →
    ∃ t : State,
      afterEvents (.clockEdge :: (q ++ .dataInputUpdate source :: (q' ++ [.clockEdge]))) s = .next t ∧
      t.regs = writeReg s.regs d x ∧ t.din = x ∧ t.bus = x ∧
      t.a = s.a ∧ t.g = s.g ∧ t.done = true ∧ t.phase = .p0

/-- `add` takes four edges from phase 0 and writes the sum modulo 2^16 (R72, R102; decision D2 of the spec, log
entry 6), whatever ticks, updates and hovers come between the edges (R81). That an update may come in any phase is
decision D11 of the spec (log entry 15). -/
def Obligations.AddCompletesInFourEdges : Prop :=
  ∀ (d r : RegIdx) (s : State) (q₁ q₂ q₃ : List Event), Quiet q₁ → Quiet q₂ → Quiet q₃ →
    s.phase = .p0 → s.done = false → edgeProceeds s = true → decodeWord s.din = .add d r →
    ∃ t : State,
      afterEvents (.clockEdge :: (q₁ ++ .clockEdge :: (q₂ ++ .clockEdge :: (q₃ ++ [.clockEdge])))) s =
        .next t ∧
      (readReg t.regs d).toNat = ((readReg s.regs d).toNat + (readReg s.regs r).toNat) % 2 ^ 16 ∧
      (∀ k, k ≠ d → readReg t.regs k = readReg s.regs k) ∧
      t.a = readReg s.regs d ∧ t.g = readReg t.regs d ∧ t.bus = readReg t.regs d ∧
      t.done = true ∧ t.phase = .p0

/-- `sub` takes four edges from phase 0 and writes the difference modulo 2^16 (R73, R102; decision D2 of the spec,
log entry 6), whatever ticks, updates and hovers come between the edges (R81). That an update may come in any phase
is decision D11 of the spec (log entry 15). -/
def Obligations.SubCompletesInFourEdges : Prop :=
  ∀ (d r : RegIdx) (s : State) (q₁ q₂ q₃ : List Event), Quiet q₁ → Quiet q₂ → Quiet q₃ →
    s.phase = .p0 → s.done = false → edgeProceeds s = true → decodeWord s.din = .sub d r →
    ∃ t : State,
      afterEvents (.clockEdge :: (q₁ ++ .clockEdge :: (q₂ ++ .clockEdge :: (q₃ ++ [.clockEdge])))) s =
        .next t ∧
      ((readReg t.regs d).toNat : Int) =
        ((readReg s.regs d).toNat - (readReg s.regs r).toNat : Int) % 2 ^ 16 ∧
      (∀ k, k ≠ d → readReg t.regs k = readReg s.regs k) ∧
      t.a = readReg s.regs d ∧ t.g = readReg t.regs d ∧ t.bus = readReg t.regs d ∧
      t.done = true ∧ t.phase = .p0

/-- Edge counts (R102): from phase 0 with `done` false, `done` is first true after edge 2 for opcodes 0 and 1,
after edge 4 for opcodes 2 and 3, and never for opcodes 4 to 7. -/
def Obligations.EdgeCounts : Prop :=
  ∀ (s : State) (k : Nat), s.phase = .p0 → s.done = false → edgeProceeds s = true →
    ((opcodeField (fetchField s.din)).toNat ≤ 1 → k ≤ 2 →
      ∃ t : State, afterEvents (List.replicate k .clockEdge) s = .next t ∧ (t.done = true ↔ k = 2)) ∧
    ((opcodeField (fetchField s.din)).toNat = 2 ∨ (opcodeField (fetchField s.din)).toNat = 3 → k ≤ 4 →
      ∃ t : State, afterEvents (List.replicate k .clockEdge) s = .next t ∧ (t.done = true ↔ k = 4)) ∧
    (4 ≤ (opcodeField (fetchField s.din)).toNat →
      ∃ t : State, afterEvents (List.replicate k .clockEdge) s = .next t ∧ t.done = false)

/-! ### Waits, the done-clear edge and boot -/

/-- R93: the three waits. Before the first run and at a completed instruction, with `run` false, edges leave the
whole Machine State until a tick with `run` true, after which the next edge proceeds; a stall outlasts every
list of events. That the stall holds the phase is the spec's resolution C3 and decision D9 (log entry 9), that
power-on alone ends it decision D7 (log entry 10). -/
def Obligations.WaitingConditions : Prop :=
  (∀ (n : Nat) (s : State), s.run = false → s.awaitingFirstRun = true ∨ s.done = true →
    ∃ t : State, afterEvents (List.replicate n .clockEdge) s = .next t ∧
      t.toSnapshot = s.toSnapshot) ∧
  (∀ (s : State) (env : Environment), env.run = true →
    ∃ t : State, afterEvents [.environmentTick env] s = .next t ∧ edgeProceeds t = true ∧
      t.toSnapshot = { s.toSnapshot with
        run := true
        resetN := env.resetN
        registerRadix := env.registerRadix
        irRadix := env.irRadix
        wires := { s.wires with clear := t.wires.clear } }) ∧
  (∀ (evs : List Event) (s : State), s.Stalled →
    ∃ t : State, afterEvents evs s = .next t ∧ t.Stalled ∧
      t.phase = s.phase ∧ t.ir = s.ir ∧ t.regs = s.regs ∧ t.a = s.a ∧ t.g = s.g ∧ t.bus = s.bus)

/-- The completion hold (R62) ends only with a tick that sets `run`: any other events leave `done`, the phase,
the registers and every other field an edge writes. That nothing else ends it is the spec's own reading of the
source's "force-fetched", for which no mechanism is given (91_not_in_source.md N15; log entry 10). -/
def Obligations.HoldOutlastsOtherEvents : Prop :=
  ∀ (evs : List Event) (s : State), s.run = false → s.done = true →
    (∀ env, .environmentTick env ∈ evs → env.run = false) →
    ∃ t : State, afterEvents evs s = .next t ∧
      t.toSnapshot = { s.toSnapshot with
        resetN := t.resetN
        registerRadix := t.registerRadix
        irRadix := t.irRadix
        din := t.din
        wires := { s.wires with clear := t.wires.clear } }

/-- The done-clear edge (R97): the edge after a done edge fetches, clears `done` and leaves the phase at 0, and
the next instruction may be written before it or after it with the same result. That an update may come in any
phase is decision D11 of the spec (log entry 15). -/
def Obligations.DoneClearEdgeFetchesTwice : Prop :=
  ∀ (s : State) (source : DataSource) (w : Word), s.phase = .p0 → s.done = true → s.run = true →
    encodeSource source = .ok w →
    (∃ t : State, afterEvents [.clockEdge] s = .next t ∧
      t.ir = fetchField s.din ∧ t.done = false ∧ t.phase = .p0 ∧ t.regs = s.regs) ∧
    (∃ t : State, afterEvents [.dataInputUpdate source, .clockEdge, .clockEdge] s = .next t ∧
      afterEvents [.clockEdge, .dataInputUpdate source, .clockEdge] s = .next t ∧
      t.ir = fetchField w ∧ t.done = false ∧ t.phase = .p1 ∧ t.regs = s.regs)

/-- R100's way to run exactly one more instruction with `run` false: tick `run` true, one edge, tick `run` false,
then edges: the instruction in `DIN` completes in two edges (`mv`, `mvi`) or four (`add`, `sub`) and the core holds,
however many edges follow. The sum and the difference are modulo 2^16: decision D2 of the spec (log entry 6).
Opcodes 4 to 7 never complete (UndefinedOpcodeStalls). -/
def Obligations.OneInstructionWithRunLow : Prop :=
  ∀ (s : State) (up down : Environment) (d r : RegIdx) (n : Nat),
    s.phase = .p0 → s.done = true → up.run = true → down.run = false →
    (decodeWord s.din = .mv d r →
      ∃ t : State,
        afterEvents ([.environmentTick up, .clockEdge, .environmentTick down] ++
          List.replicate (2 + n) .clockEdge) s = .next t ∧
        t.regs = writeReg s.regs d (readReg s.regs r) ∧
        t.ir = fetchField s.din ∧ t.done = true ∧ t.phase = .p0 ∧ t.run = false) ∧
    (decodeWord s.din = .mvi d r →
      ∃ t : State,
        afterEvents ([.environmentTick up, .clockEdge, .environmentTick down] ++
          List.replicate (2 + n) .clockEdge) s = .next t ∧
        t.regs = writeReg s.regs d s.din ∧
        t.ir = fetchField s.din ∧ t.done = true ∧ t.phase = .p0 ∧ t.run = false) ∧
    (decodeWord s.din = .add d r →
      ∃ t : State,
        afterEvents ([.environmentTick up, .clockEdge, .environmentTick down] ++
          List.replicate (4 + n) .clockEdge) s = .next t ∧
        t.regs = writeReg s.regs d
          (BitVec.ofNat 16 ((readReg s.regs d).toNat + (readReg s.regs r).toNat)) ∧
        t.ir = fetchField s.din ∧ t.done = true ∧ t.phase = .p0 ∧ t.run = false) ∧
    (decodeWord s.din = .sub d r →
      ∃ t : State,
        afterEvents ([.environmentTick up, .clockEdge, .environmentTick down] ++
          List.replicate (4 + n) .clockEdge) s = .next t ∧
        t.regs = writeReg s.regs d
          (BitVec.ofInt 16 (((readReg s.regs d).toNat : Int) - (readReg s.regs r).toNat)) ∧
        t.ir = fetchField s.din ∧ t.done = true ∧ t.phase = .p0 ∧ t.run = false)

/-- Boot (R96): from power-on, a data-input update and a tick with `run` true in either order, then one edge,
fetch the written word and open the first-run gate. That an update may come while the gate is closed is decision
D11 of the spec (log entry 15). -/
def Obligations.BootFetchesFirstWord : Prop :=
  ∀ (source : DataSource) (w : Word) (env : Environment),
    encodeSource source = .ok w → env.run = true →
    ∃ t : State,
      afterEvents [.dataInputUpdate source, .environmentTick env, .clockEdge] State.reset = .next t ∧
      afterEvents [.environmentTick env, .dataInputUpdate source, .clockEdge] State.reset = .next t ∧
      t.ir = fetchField w ∧ t.phase = .p1 ∧ t.awaitingFirstRun = false ∧ t.done = false ∧
      t.wires.irLoad = true
end

