-- ==== Sys2Proof/Laws/Codec.lean ====
section
/-! SUPPORT. What the codec's digit readers can answer, said once. -/

namespace Sys2Proof.Machine

/-- The register digits are the characters `0` to `7`, in order (R56). -/
theorem regDigit_eq_some {c : Char} {i : RegIdx} : regDigit c = some i ↔ c = Nat.digitChar i.toNat := by
  constructor
  · intro h
    unfold regDigit at h
    split at h
    · rename_i hc
      have hlo : 48 ≤ c.toNat := hc.1
      have hhi : c.toNat ≤ 55 := hc.2
      have hrange : ∀ k : Fin 8, Char.ofNat (k.val + 48) = Nat.digitChar (BitVec.ofNat 3 k.val).toNat := by
        decide
      have hk := hrange ⟨c.toNat - 48, by omega⟩
      rw [← Option.some.inj h, ← Char.ofNat_toNat c]
      simpa [Nat.sub_add_cancel hlo] using hk
    · simp at h
  · rintro rfl
    have hall : ∀ k : RegIdx, regDigit (Nat.digitChar k.toNat) = some k := by decide
    exact hall i

/-- A digit's value is its position in the alphabet, below the radix (R58). -/
theorem digitValue_eq_some {b : Radix} {c : Char} {d : Nat} :
    digitValue b c = some d ↔ d < b.base ∧ digitAlphabet[d]? = some c := by
  have hdistinct : (radixAlphabet b).Nodup := by cases b <;> decide
  have hget : (radixAlphabet b)[d]? = some c ↔ d < b.base ∧ digitAlphabet[d]? = some c := by
    by_cases hd : d < b.base <;> simp [radixAlphabet, hd]
  rw [← hget, digitValue, List.idxOf?, List.findIdx?_eq_some_iff_getElem, List.getElem?_eq_some_iff]
  constructor
  · rintro ⟨hlt, heq, -⟩
    exact ⟨hlt, by simpa using heq⟩
  · rintro ⟨hlt, rfl⟩
    refine ⟨hlt, by simp, fun j hj => ?_⟩
    simpa [hdistinct.getElem_inj_iff] using Nat.ne_of_lt hj

/-- A character that is no digit of the radix has no value (R58). -/
theorem digitValue_eq_none {b : Radix} {c : Char} : digitValue b c = none ↔ c ∉ radixAlphabet b := by
  rw [digitValue, List.idxOf?_eq_none_iff]

end Sys2Proof.Machine
end

