-- ==== Sys2Proof/Laws/Decode.lean ====
section
/-! SUPPORT. The fields of packed words. -/

namespace Sys2Proof

@[simp] theorem opcodeField_pack (o : Opcode) (d r : RegIdx) : opcodeField (packFields o d r) = o := by
  apply BitVec.eq_of_getLsbD_eq
  intro i hi
  have : i = 0 ∨ i = 1 ∨ i = 2 := by omega
  rcases this with rfl | rfl | rfl <;> simp [opcodeField, packFields]

@[simp] theorem destField_pack (o : Opcode) (d r : RegIdx) : destField (packFields o d r) = d := by
  apply BitVec.eq_of_getLsbD_eq
  intro i hi
  have : i = 0 ∨ i = 1 ∨ i = 2 := by omega
  rcases this with rfl | rfl | rfl <;> simp [destField, packFields]

@[simp] theorem srcField_pack (o : Opcode) (d r : RegIdx) : srcField (packFields o d r) = r := by
  apply BitVec.eq_of_getLsbD_eq
  intro i hi
  have : i = 0 ∨ i = 1 ∨ i = 2 := by omega
  rcases this with rfl | rfl | rfl <;> simp [srcField, packFields]

/-- The fetch takes back the 9 bits an encoding packs (R50, R57). -/
@[simp] theorem fetchField_encode (i : Instr) : fetchField (encode i) = encodeIr i := by
  apply BitVec.eq_of_getLsbD_eq
  intro k hk
  have h16 : 7 + k < 16 := by omega
  simp [fetchField, encode, h16]
  exact fun _ => hk

/-- What a word decodes to, by its opcode (R52). -/
theorem decode_cases (ir : IrWord) :
    (opcodeField ir = 0 ∧ decode ir = .mv (destField ir) (srcField ir)) ∨
    (opcodeField ir = 1 ∧ decode ir = .mvi (destField ir) (srcField ir)) ∨
    (opcodeField ir = 2 ∧ decode ir = .add (destField ir) (srcField ir)) ∨
    (opcodeField ir = 3 ∧ decode ir = .sub (destField ir) (srcField ir)) ∨
    (4 ≤ (opcodeField ir).toNat ∧
      decode ir = .undef (opcodeField ir) (destField ir) (srcField ir)) := by
  have hlt : (opcodeField ir).toNat < 2 ^ 3 := (opcodeField ir).isLt
  have hn : (opcodeField ir).toNat = 0 ∨ (opcodeField ir).toNat = 1 ∨ (opcodeField ir).toNat = 2 ∨
      (opcodeField ir).toNat = 3 ∨ 4 ≤ (opcodeField ir).toNat := by omega
  rcases hn with h | h | h | h | h
  · exact .inl ⟨BitVec.eq_of_toNat_eq h, by simp [decode, h]⟩
  · exact .inr (.inl ⟨BitVec.eq_of_toNat_eq h, by simp [decode, h]⟩)
  · exact .inr (.inr (.inl ⟨BitVec.eq_of_toNat_eq h, by simp [decode, h]⟩))
  · exact .inr (.inr (.inr (.inl ⟨BitVec.eq_of_toNat_eq h, by simp [decode, h]⟩)))
  · refine .inr (.inr (.inr (.inr ⟨h, ?_⟩)))
    unfold decode
    split <;> first | omega | rfl

/-- The undefined opcodes are the words with bit 8 set (R52). -/
theorem opcode_undefined_iff (ir : IrWord) : 4 ≤ (opcodeField ir).toNat ↔ ir.getLsbD 8 = true := by
  have h2 : (opcodeField ir).getLsbD 2 = ir.getLsbD 8 := by simp [opcodeField]
  have hlt : (opcodeField ir).toNat < 2 ^ 3 := (opcodeField ir).isLt
  rw [← h2, BitVec.getLsbD, Nat.testBit_eq_decide_div_mod_eq]
  simp
  omega

end Sys2Proof
end

