-- ==== Sys2Proof/Laws/State.lean ====
section
/-! SUPPORT. One lemma per field per update of the state: what each row of an edge, an EnvironmentTick, the receipt
of an event and a loaded instruction leave in each field. -/

namespace Sys2Proof.Machine

@[simp] theorem beginEdge_regs (s : State) : (beginEdge s).regs = s.regs := rfl
@[simp] theorem beginEdge_a (s : State) : (beginEdge s).a = s.a := rfl
@[simp] theorem beginEdge_g (s : State) : (beginEdge s).g = s.g := rfl
@[simp] theorem beginEdge_ir (s : State) : (beginEdge s).ir = s.ir := rfl
@[simp] theorem beginEdge_din (s : State) : (beginEdge s).din = s.din := rfl
@[simp] theorem beginEdge_phase (s : State) : (beginEdge s).phase = nextPhase s := rfl
@[simp] theorem beginEdge_done (s : State) : (beginEdge s).done = false := rfl
@[simp] theorem beginEdge_awaitingFirstRun (s : State) : (beginEdge s).awaitingFirstRun = false := rfl
@[simp] theorem beginEdge_wires (s : State) : (beginEdge s).wires = Wires.off := rfl
@[simp] theorem beginEdge_bus (s : State) : (beginEdge s).bus = s.bus := rfl
@[simp] theorem beginEdge_run (s : State) : (beginEdge s).run = s.run := rfl
@[simp] theorem beginEdge_resetN (s : State) : (beginEdge s).resetN = s.resetN := rfl
@[simp] theorem beginEdge_registerRadix (s : State) : (beginEdge s).registerRadix = s.registerRadix := rfl
@[simp] theorem beginEdge_irRadix (s : State) : (beginEdge s).irRadix = s.irRadix := rfl
@[simp] theorem beginEdge_events (s : State) : (beginEdge s).events = s.events := rfl
@[simp] theorem beginEdge_reply (s : State) : (beginEdge s).reply = s.reply := rfl

@[simp] theorem fetchEdge_regs (s : State) : (fetchEdge s).regs = s.regs := rfl
@[simp] theorem fetchEdge_a (s : State) : (fetchEdge s).a = s.a := rfl
@[simp] theorem fetchEdge_g (s : State) : (fetchEdge s).g = s.g := rfl
@[simp] theorem fetchEdge_ir (s : State) : (fetchEdge s).ir = fetchField s.din := rfl
@[simp] theorem fetchEdge_din (s : State) : (fetchEdge s).din = s.din := rfl
@[simp] theorem fetchEdge_phase (s : State) : (fetchEdge s).phase = nextPhase s := rfl
@[simp] theorem fetchEdge_done (s : State) : (fetchEdge s).done = false := rfl
@[simp] theorem fetchEdge_awaitingFirstRun (s : State) : (fetchEdge s).awaitingFirstRun = false := rfl
@[simp] theorem fetchEdge_wires (s : State) : (fetchEdge s).wires = { Wires.off with irLoad := true } := rfl
@[simp] theorem fetchEdge_bus (s : State) : (fetchEdge s).bus = s.bus := rfl
@[simp] theorem fetchEdge_run (s : State) : (fetchEdge s).run = s.run := rfl
@[simp] theorem fetchEdge_resetN (s : State) : (fetchEdge s).resetN = s.resetN := rfl
@[simp] theorem fetchEdge_registerRadix (s : State) : (fetchEdge s).registerRadix = s.registerRadix := rfl
@[simp] theorem fetchEdge_irRadix (s : State) : (fetchEdge s).irRadix = s.irRadix := rfl
@[simp] theorem fetchEdge_events (s : State) : (fetchEdge s).events = s.events := rfl
@[simp] theorem fetchEdge_reply (s : State) : (fetchEdge s).reply = s.reply := rfl

@[simp] theorem holdEdge_regs (s : State) : (holdEdge s).regs = s.regs := rfl
@[simp] theorem holdEdge_a (s : State) : (holdEdge s).a = s.a := rfl
@[simp] theorem holdEdge_g (s : State) : (holdEdge s).g = s.g := rfl
@[simp] theorem holdEdge_ir (s : State) : (holdEdge s).ir = s.ir := rfl
@[simp] theorem holdEdge_din (s : State) : (holdEdge s).din = s.din := rfl
@[simp] theorem holdEdge_phase (s : State) : (holdEdge s).phase = s.phase := rfl
@[simp] theorem holdEdge_done (s : State) : (holdEdge s).done = false := rfl
@[simp] theorem holdEdge_awaitingFirstRun (s : State) : (holdEdge s).awaitingFirstRun = false := rfl
@[simp] theorem holdEdge_wires (s : State) : (holdEdge s).wires = Wires.off := rfl
@[simp] theorem holdEdge_bus (s : State) : (holdEdge s).bus = s.bus := rfl
@[simp] theorem holdEdge_run (s : State) : (holdEdge s).run = s.run := rfl
@[simp] theorem holdEdge_resetN (s : State) : (holdEdge s).resetN = s.resetN := rfl
@[simp] theorem holdEdge_registerRadix (s : State) : (holdEdge s).registerRadix = s.registerRadix := rfl
@[simp] theorem holdEdge_irRadix (s : State) : (holdEdge s).irRadix = s.irRadix := rfl
@[simp] theorem holdEdge_events (s : State) : (holdEdge s).events = s.events := rfl
@[simp] theorem holdEdge_reply (s : State) : (holdEdge s).reply = s.reply := rfl

@[simp] theorem moveEdge_regs (d r : RegIdx) (s : State) :
    (moveEdge d r s).regs = writeReg s.regs d (readReg s.regs r) := rfl
@[simp] theorem moveEdge_a (d r : RegIdx) (s : State) : (moveEdge d r s).a = s.a := rfl
@[simp] theorem moveEdge_g (d r : RegIdx) (s : State) : (moveEdge d r s).g = s.g := rfl
@[simp] theorem moveEdge_ir (d r : RegIdx) (s : State) : (moveEdge d r s).ir = s.ir := rfl
@[simp] theorem moveEdge_din (d r : RegIdx) (s : State) : (moveEdge d r s).din = s.din := rfl
@[simp] theorem moveEdge_phase (d r : RegIdx) (s : State) : (moveEdge d r s).phase = .p0 := rfl
@[simp] theorem moveEdge_done (d r : RegIdx) (s : State) : (moveEdge d r s).done = true := rfl
@[simp] theorem moveEdge_awaitingFirstRun (d r : RegIdx) (s : State) :
    (moveEdge d r s).awaitingFirstRun = false := rfl
@[simp] theorem moveEdge_wires (d r : RegIdx) (s : State) :
    (moveEdge d r s).wires = { Wires.off with regOut := onlyWire r, regLoad := onlyWire d } := rfl
@[simp] theorem moveEdge_bus (d r : RegIdx) (s : State) : (moveEdge d r s).bus = readReg s.regs r := rfl
@[simp] theorem moveEdge_run (d r : RegIdx) (s : State) : (moveEdge d r s).run = s.run := rfl
@[simp] theorem moveEdge_resetN (d r : RegIdx) (s : State) : (moveEdge d r s).resetN = s.resetN := rfl
@[simp] theorem moveEdge_registerRadix (d r : RegIdx) (s : State) :
    (moveEdge d r s).registerRadix = s.registerRadix := rfl
@[simp] theorem moveEdge_irRadix (d r : RegIdx) (s : State) : (moveEdge d r s).irRadix = s.irRadix := rfl
@[simp] theorem moveEdge_events (d r : RegIdx) (s : State) : (moveEdge d r s).events = s.events := rfl
@[simp] theorem moveEdge_reply (d r : RegIdx) (s : State) : (moveEdge d r s).reply = s.reply := rfl

@[simp] theorem moveDataEdge_regs (d : RegIdx) (s : State) :
    (moveDataEdge d s).regs = writeReg s.regs d s.din := rfl
@[simp] theorem moveDataEdge_a (d : RegIdx) (s : State) : (moveDataEdge d s).a = s.a := rfl
@[simp] theorem moveDataEdge_g (d : RegIdx) (s : State) : (moveDataEdge d s).g = s.g := rfl
@[simp] theorem moveDataEdge_ir (d : RegIdx) (s : State) : (moveDataEdge d s).ir = s.ir := rfl
@[simp] theorem moveDataEdge_din (d : RegIdx) (s : State) : (moveDataEdge d s).din = s.din := rfl
@[simp] theorem moveDataEdge_phase (d : RegIdx) (s : State) : (moveDataEdge d s).phase = .p0 := rfl
@[simp] theorem moveDataEdge_done (d : RegIdx) (s : State) : (moveDataEdge d s).done = true := rfl
@[simp] theorem moveDataEdge_awaitingFirstRun (d : RegIdx) (s : State) :
    (moveDataEdge d s).awaitingFirstRun = false := rfl
@[simp] theorem moveDataEdge_wires (d : RegIdx) (s : State) :
    (moveDataEdge d s).wires = { Wires.off with dataInOut := true, regLoad := onlyWire d } := rfl
@[simp] theorem moveDataEdge_bus (d : RegIdx) (s : State) : (moveDataEdge d s).bus = s.din := rfl
@[simp] theorem moveDataEdge_run (d : RegIdx) (s : State) : (moveDataEdge d s).run = s.run := rfl
@[simp] theorem moveDataEdge_resetN (d : RegIdx) (s : State) : (moveDataEdge d s).resetN = s.resetN := rfl
@[simp] theorem moveDataEdge_registerRadix (d : RegIdx) (s : State) :
    (moveDataEdge d s).registerRadix = s.registerRadix := rfl
@[simp] theorem moveDataEdge_irRadix (d : RegIdx) (s : State) : (moveDataEdge d s).irRadix = s.irRadix := rfl
@[simp] theorem moveDataEdge_events (d : RegIdx) (s : State) : (moveDataEdge d s).events = s.events := rfl
@[simp] theorem moveDataEdge_reply (d : RegIdx) (s : State) : (moveDataEdge d s).reply = s.reply := rfl

@[simp] theorem accumulateEdge_regs (d : RegIdx) (s : State) : (accumulateEdge d s).regs = s.regs := rfl
@[simp] theorem accumulateEdge_a (d : RegIdx) (s : State) : (accumulateEdge d s).a = readReg s.regs d := rfl
@[simp] theorem accumulateEdge_g (d : RegIdx) (s : State) : (accumulateEdge d s).g = s.g := rfl
@[simp] theorem accumulateEdge_ir (d : RegIdx) (s : State) : (accumulateEdge d s).ir = s.ir := rfl
@[simp] theorem accumulateEdge_din (d : RegIdx) (s : State) : (accumulateEdge d s).din = s.din := rfl
@[simp] theorem accumulateEdge_phase (d : RegIdx) (s : State) :
    (accumulateEdge d s).phase = nextPhase s := rfl
@[simp] theorem accumulateEdge_done (d : RegIdx) (s : State) : (accumulateEdge d s).done = false := rfl
@[simp] theorem accumulateEdge_awaitingFirstRun (d : RegIdx) (s : State) :
    (accumulateEdge d s).awaitingFirstRun = false := rfl
@[simp] theorem accumulateEdge_wires (d : RegIdx) (s : State) :
    (accumulateEdge d s).wires = { Wires.off with regOut := onlyWire d, accumLoad := true } := rfl
@[simp] theorem accumulateEdge_bus (d : RegIdx) (s : State) :
    (accumulateEdge d s).bus = readReg s.regs d := rfl
@[simp] theorem accumulateEdge_run (d : RegIdx) (s : State) : (accumulateEdge d s).run = s.run := rfl
@[simp] theorem accumulateEdge_resetN (d : RegIdx) (s : State) : (accumulateEdge d s).resetN = s.resetN := rfl
@[simp] theorem accumulateEdge_registerRadix (d : RegIdx) (s : State) :
    (accumulateEdge d s).registerRadix = s.registerRadix := rfl
@[simp] theorem accumulateEdge_irRadix (d : RegIdx) (s : State) :
    (accumulateEdge d s).irRadix = s.irRadix := rfl
@[simp] theorem accumulateEdge_events (d : RegIdx) (s : State) : (accumulateEdge d s).events = s.events := rfl
@[simp] theorem accumulateEdge_reply (d : RegIdx) (s : State) : (accumulateEdge d s).reply = s.reply := rfl

@[simp] theorem aluEdge_regs (m : Bool) (r : RegIdx) (s : State) : (aluEdge m r s).regs = s.regs := rfl
@[simp] theorem aluEdge_a (m : Bool) (r : RegIdx) (s : State) : (aluEdge m r s).a = s.a := rfl
@[simp] theorem aluEdge_g (m : Bool) (r : RegIdx) (s : State) :
    (aluEdge m r s).g = alu s.a (readReg s.regs r) m := rfl
@[simp] theorem aluEdge_ir (m : Bool) (r : RegIdx) (s : State) : (aluEdge m r s).ir = s.ir := rfl
@[simp] theorem aluEdge_din (m : Bool) (r : RegIdx) (s : State) : (aluEdge m r s).din = s.din := rfl
@[simp] theorem aluEdge_phase (m : Bool) (r : RegIdx) (s : State) : (aluEdge m r s).phase = nextPhase s := rfl
@[simp] theorem aluEdge_done (m : Bool) (r : RegIdx) (s : State) : (aluEdge m r s).done = false := rfl
@[simp] theorem aluEdge_awaitingFirstRun (m : Bool) (r : RegIdx) (s : State) :
    (aluEdge m r s).awaitingFirstRun = false := rfl
@[simp] theorem aluEdge_wires (m : Bool) (r : RegIdx) (s : State) :
    (aluEdge m r s).wires = { Wires.off with
      regOut := onlyWire r
      aluResultLoad := true
      subtractMode := m
      aluResultWire := alu s.a (readReg s.regs r) m } := rfl
@[simp] theorem aluEdge_bus (m : Bool) (r : RegIdx) (s : State) :
    (aluEdge m r s).bus = readReg s.regs r := rfl
@[simp] theorem aluEdge_run (m : Bool) (r : RegIdx) (s : State) : (aluEdge m r s).run = s.run := rfl
@[simp] theorem aluEdge_resetN (m : Bool) (r : RegIdx) (s : State) : (aluEdge m r s).resetN = s.resetN := rfl
@[simp] theorem aluEdge_registerRadix (m : Bool) (r : RegIdx) (s : State) :
    (aluEdge m r s).registerRadix = s.registerRadix := rfl
@[simp] theorem aluEdge_irRadix (m : Bool) (r : RegIdx) (s : State) :
    (aluEdge m r s).irRadix = s.irRadix := rfl
@[simp] theorem aluEdge_events (m : Bool) (r : RegIdx) (s : State) : (aluEdge m r s).events = s.events := rfl
@[simp] theorem aluEdge_reply (m : Bool) (r : RegIdx) (s : State) : (aluEdge m r s).reply = s.reply := rfl

@[simp] theorem writeBackEdge_regs (d : RegIdx) (s : State) :
    (writeBackEdge d s).regs = writeReg s.regs d s.g := rfl
@[simp] theorem writeBackEdge_a (d : RegIdx) (s : State) : (writeBackEdge d s).a = s.a := rfl
@[simp] theorem writeBackEdge_g (d : RegIdx) (s : State) : (writeBackEdge d s).g = s.g := rfl
@[simp] theorem writeBackEdge_ir (d : RegIdx) (s : State) : (writeBackEdge d s).ir = s.ir := rfl
@[simp] theorem writeBackEdge_din (d : RegIdx) (s : State) : (writeBackEdge d s).din = s.din := rfl
@[simp] theorem writeBackEdge_phase (d : RegIdx) (s : State) : (writeBackEdge d s).phase = nextPhase s := rfl
@[simp] theorem writeBackEdge_done (d : RegIdx) (s : State) : (writeBackEdge d s).done = true := rfl
@[simp] theorem writeBackEdge_awaitingFirstRun (d : RegIdx) (s : State) :
    (writeBackEdge d s).awaitingFirstRun = false := rfl
@[simp] theorem writeBackEdge_wires (d : RegIdx) (s : State) :
    (writeBackEdge d s).wires = { Wires.off with aluResultOut := true, regLoad := onlyWire d } := rfl
@[simp] theorem writeBackEdge_bus (d : RegIdx) (s : State) : (writeBackEdge d s).bus = s.g := rfl
@[simp] theorem writeBackEdge_run (d : RegIdx) (s : State) : (writeBackEdge d s).run = s.run := rfl
@[simp] theorem writeBackEdge_resetN (d : RegIdx) (s : State) : (writeBackEdge d s).resetN = s.resetN := rfl
@[simp] theorem writeBackEdge_registerRadix (d : RegIdx) (s : State) :
    (writeBackEdge d s).registerRadix = s.registerRadix := rfl
@[simp] theorem writeBackEdge_irRadix (d : RegIdx) (s : State) :
    (writeBackEdge d s).irRadix = s.irRadix := rfl
@[simp] theorem writeBackEdge_events (d : RegIdx) (s : State) : (writeBackEdge d s).events = s.events := rfl
@[simp] theorem writeBackEdge_reply (d : RegIdx) (s : State) : (writeBackEdge d s).reply = s.reply := rfl

@[simp] theorem environmentTick_regs (env : Environment) (s : State) :
    (environmentTick env s).regs = s.regs := rfl
@[simp] theorem environmentTick_a (env : Environment) (s : State) : (environmentTick env s).a = s.a := rfl
@[simp] theorem environmentTick_g (env : Environment) (s : State) : (environmentTick env s).g = s.g := rfl
@[simp] theorem environmentTick_ir (env : Environment) (s : State) : (environmentTick env s).ir = s.ir := rfl
@[simp] theorem environmentTick_din (env : Environment) (s : State) :
    (environmentTick env s).din = s.din := rfl
@[simp] theorem environmentTick_phase (env : Environment) (s : State) :
    (environmentTick env s).phase = s.phase := rfl
@[simp] theorem environmentTick_done (env : Environment) (s : State) :
    (environmentTick env s).done = s.done := rfl
@[simp] theorem environmentTick_awaitingFirstRun (env : Environment) (s : State) :
    (environmentTick env s).awaitingFirstRun = s.awaitingFirstRun := rfl
@[simp] theorem environmentTick_wires (env : Environment) (s : State) :
    (environmentTick env s).wires = { s.wires with clear := clearSignal env.resetN s.done } := rfl
@[simp] theorem environmentTick_bus (env : Environment) (s : State) :
    (environmentTick env s).bus = s.bus := rfl
@[simp] theorem environmentTick_run (env : Environment) (s : State) :
    (environmentTick env s).run = env.run := rfl
@[simp] theorem environmentTick_resetN (env : Environment) (s : State) :
    (environmentTick env s).resetN = env.resetN := rfl
@[simp] theorem environmentTick_registerRadix (env : Environment) (s : State) :
    (environmentTick env s).registerRadix = env.registerRadix := rfl
@[simp] theorem environmentTick_irRadix (env : Environment) (s : State) :
    (environmentTick env s).irRadix = env.irRadix := rfl
@[simp] theorem environmentTick_events (env : Environment) (s : State) :
    (environmentTick env s).events = s.events := rfl
@[simp] theorem environmentTick_reply (env : Environment) (s : State) :
    (environmentTick env s).reply = s.reply := rfl

@[simp] theorem receive_regs (rest : List Event) (s : State) : (receive rest s).regs = s.regs := rfl
@[simp] theorem receive_a (rest : List Event) (s : State) : (receive rest s).a = s.a := rfl
@[simp] theorem receive_g (rest : List Event) (s : State) : (receive rest s).g = s.g := rfl
@[simp] theorem receive_ir (rest : List Event) (s : State) : (receive rest s).ir = s.ir := rfl
@[simp] theorem receive_din (rest : List Event) (s : State) : (receive rest s).din = s.din := rfl
@[simp] theorem receive_phase (rest : List Event) (s : State) : (receive rest s).phase = s.phase := rfl
@[simp] theorem receive_done (rest : List Event) (s : State) : (receive rest s).done = s.done := rfl
@[simp] theorem receive_awaitingFirstRun (rest : List Event) (s : State) :
    (receive rest s).awaitingFirstRun = s.awaitingFirstRun := rfl
@[simp] theorem receive_wires (rest : List Event) (s : State) : (receive rest s).wires = s.wires := rfl
@[simp] theorem receive_bus (rest : List Event) (s : State) : (receive rest s).bus = s.bus := rfl
@[simp] theorem receive_run (rest : List Event) (s : State) : (receive rest s).run = s.run := rfl
@[simp] theorem receive_resetN (rest : List Event) (s : State) : (receive rest s).resetN = s.resetN := rfl
@[simp] theorem receive_registerRadix (rest : List Event) (s : State) :
    (receive rest s).registerRadix = s.registerRadix := rfl
@[simp] theorem receive_irRadix (rest : List Event) (s : State) : (receive rest s).irRadix = s.irRadix := rfl
@[simp] theorem receive_events (rest : List Event) (s : State) : (receive rest s).events = rest := rfl
@[simp] theorem receive_reply (rest : List Event) (s : State) : (receive rest s).reply = none := rfl

@[simp] theorem loadedWith_regs (w : Word) (s : State) : (loadedWith w s).regs = s.regs := rfl
@[simp] theorem loadedWith_a (w : Word) (s : State) : (loadedWith w s).a = s.a := rfl
@[simp] theorem loadedWith_g (w : Word) (s : State) : (loadedWith w s).g = s.g := rfl
@[simp] theorem loadedWith_ir (w : Word) (s : State) : (loadedWith w s).ir = fetchField w := rfl
@[simp] theorem loadedWith_din (w : Word) (s : State) : (loadedWith w s).din = w := rfl
@[simp] theorem loadedWith_phase (w : Word) (s : State) : (loadedWith w s).phase = .p1 := rfl
@[simp] theorem loadedWith_done (w : Word) (s : State) : (loadedWith w s).done = false := rfl
@[simp] theorem loadedWith_awaitingFirstRun (w : Word) (s : State) :
    (loadedWith w s).awaitingFirstRun = false := rfl
@[simp] theorem loadedWith_wires (w : Word) (s : State) : (loadedWith w s).wires = s.wires := rfl
@[simp] theorem loadedWith_bus (w : Word) (s : State) : (loadedWith w s).bus = s.bus := rfl
@[simp] theorem loadedWith_run (w : Word) (s : State) : (loadedWith w s).run = s.run := rfl
@[simp] theorem loadedWith_resetN (w : Word) (s : State) : (loadedWith w s).resetN = s.resetN := rfl
@[simp] theorem loadedWith_registerRadix (w : Word) (s : State) :
    (loadedWith w s).registerRadix = s.registerRadix := rfl
@[simp] theorem loadedWith_irRadix (w : Word) (s : State) : (loadedWith w s).irRadix = s.irRadix := rfl
@[simp] theorem loadedWith_events (w : Word) (s : State) :
    (loadedWith w s).events = .clockEdge :: s.events := rfl
@[simp] theorem loadedWith_reply (w : Word) (s : State) : (loadedWith w s).reply = s.reply := rfl

@[simp] theorem off_irLoad : Wires.off.irLoad = false := rfl
@[simp] theorem off_accumLoad : Wires.off.accumLoad = false := rfl
@[simp] theorem off_aluResultLoad : Wires.off.aluResultLoad = false := rfl
@[simp] theorem off_accumOut : Wires.off.accumOut = false := rfl
@[simp] theorem off_dataInOut : Wires.off.dataInOut = false := rfl
@[simp] theorem off_aluResultOut : Wires.off.aluResultOut = false := rfl
@[simp] theorem off_subtractMode : Wires.off.subtractMode = false := rfl
@[simp] theorem off_aluResultWire : Wires.off.aluResultWire = 0 := rfl
@[simp] theorem off_clear : Wires.off.clear = false := rfl

/-- Receiving an event changes nothing of the core itself. -/
@[simp] theorem receive_toSnapshot (rest : List Event) (s : State) :
    (receive rest s).toSnapshot = s.toSnapshot := rfl

@[simp] theorem hoverFocus_eq (id : String) (s : State) : hoverFocus id s = s := rfl

end Sys2Proof.Machine
end

