-- ==== Sys2Proof/Laws/Ops.lean ====
section
/-! SUPPORT. What the shared operations do: the register file, the wire vectors, the adder-subtractor and the
guards. -/

namespace Sys2Proof.Machine

/-- A register read after a register write. -/
theorem readReg_writeReg (regs : RegFile) (i j : RegIdx) (v : Word) :
    readReg (writeReg regs i v) j = if i = j then v else readReg regs j := by
  simp [readReg, writeReg, Vector.getElem_set, BitVec.toNat_inj]

@[simp] theorem readReg_writeReg_same (regs : RegFile) (i : RegIdx) (v : Word) :
    readReg (writeReg regs i v) i = v := by
  simp [readReg_writeReg]

theorem readReg_writeReg_other (regs : RegFile) {i j : RegIdx} (v : Word) (h : i ≠ j) :
    readReg (writeReg regs i v) j = readReg regs j := by
  simp [readReg_writeReg, h]

/-- Two register files are equal when every register reads the same. -/
theorem regFile_ext {r r' : RegFile} (h : ∀ i : RegIdx, readReg r i = readReg r' i) : r = r' := by
  refine Vector.ext fun i hi => ?_
  simpa [readReg, Nat.mod_eq_of_lt hi] using h (BitVec.ofNat 3 i)

/-- The wire vector of one register has that bit alone. -/
@[simp] theorem onlyWire_get (i j : RegIdx) : (onlyWire i)[j.toNat]'j.isLt = decide (i = j) := by
  by_cases h : i = j
  · simp [onlyWire, h]
  · have hn : i.toNat ≠ j.toNat := fun e => h (BitVec.eq_of_toNat_eq e)
    have := Vector.getElem_set_ne (xs := Vector.replicate 8 false) (x := true) i.isLt j.isLt hn
    simpa [onlyWire, h] using this

/-- With every wire off, no register wire is set. -/
@[simp] theorem off_regLoad_get (j : RegIdx) : Wires.off.regLoad[j.toNat]'j.isLt = false := by
  simp [Wires.off]

@[simp] theorem off_regOut_get (j : RegIdx) : Wires.off.regOut[j.toNat]'j.isLt = false := by
  simp [Wires.off]

/-- Addition is the sum of the unsigned readings modulo 2^16 (R9, R74). -/
theorem alu_add_toNat (a b : Word) : (alu a b false).toNat = (b.toNat + a.toNat) % 2 ^ 16 := by
  simp [alu, BitVec.toNat_add]

/-- Subtraction adds back: the difference plus the subtrahend is the minuend (R9, R74). -/
theorem alu_sub_add (a b : Word) : alu a b true + b = a := by
  simp [alu]

/-- Both guards are closed exactly when `run` is false and the core is done or has not run yet (R60). -/
theorem edgeProceeds_iff (s : State) :
    edgeProceeds s = true ↔ s.run = true ∨ (s.done = false ∧ s.awaitingFirstRun = false) := by
  cases hr : s.run <;> cases hd : s.done <;> cases ha : s.awaitingFirstRun <;>
    simp [edgeProceeds, completionHold, firstRunGate, hr, hd, ha]

@[simp] theorem edgeProceeds_receive (rest : List Event) (s : State) :
    edgeProceeds (receive rest s) = edgeProceeds s := rfl

@[simp] theorem nextPhase_receive (rest : List Event) (s : State) :
    nextPhase (receive rest s) = nextPhase s := rfl

/-- The phase advance is the successor modulo 4 (R63). -/
theorem advance_toNat (p : Phase) : p.advance.toNat = (p.toNat + 1) % 4 := by
  cases p <;> rfl

/-- An update either writes the encoded word to `DIN` or returns the rejection (R77). -/
theorem dataInputUpdate_cases (source : DataSource) (s : State) :
    (∃ w, encodeSource source = .ok w ∧ dataInputUpdate source s = { s with din := w }) ∨
    (∃ k, encodeSource source = .error k ∧ dataInputUpdate source s = { s with reply := some k }) := by
  unfold dataInputUpdate
  cases encodeSource source with
  | ok w => exact .inl ⟨w, rfl, rfl⟩
  | error k => exact .inr ⟨k, rfl, rfl⟩

end Sys2Proof.Machine
end

