-- ==== Sys2Proof/Laws/PerInstr.lean ====
section
/-! SUPPORT. The family of statements about every instruction, one lemma per constructor. -/

namespace Sys2Proof.Laws

/-- The encoder's word keeps `DIN[6:0]` zero, and its opcode bits say whether the opcode is a defined one
(R52, R57). -/
def EncodingLayout.Statement (i : Instr) : Prop :=
  (encode i).extractLsb' 0 7 = 0 ∧
  (i.WellFormed → ((encode i).getLsbD 15 = true ↔ ∃ o d r, i = .undef o d r))

theorem EncodingLayout.low7_zero (i : Instr) : (encode i).extractLsb' 0 7 = 0 := by
  apply BitVec.eq_of_getLsbD_eq
  intro k hk
  simp [encode, hk]

theorem EncodingLayout.mv (d r : RegIdx) : EncodingLayout.Statement (.mv d r) :=
  ⟨EncodingLayout.low7_zero _, fun _ => by
    simp [encode, encodeIr, packFields]⟩

theorem EncodingLayout.mvi (d r : RegIdx) : EncodingLayout.Statement (.mvi d r) :=
  ⟨EncodingLayout.low7_zero _, fun _ => by
    simp [encode, encodeIr, packFields]⟩

theorem EncodingLayout.add (d r : RegIdx) : EncodingLayout.Statement (.add d r) :=
  ⟨EncodingLayout.low7_zero _, fun _ => by
    simp [encode, encodeIr, packFields]⟩

theorem EncodingLayout.sub (d r : RegIdx) : EncodingLayout.Statement (.sub d r) :=
  ⟨EncodingLayout.low7_zero _, fun _ => by
    simp [encode, encodeIr, packFields]⟩

theorem EncodingLayout.undef (o : Opcode) (d r : RegIdx) : EncodingLayout.Statement (.undef o d r) :=
  ⟨EncodingLayout.low7_zero _, fun h => by
    have h2 : o.getLsbD 2 = true := h
    simp [encode, encodeIr, packFields, h2]⟩

end Sys2Proof.Laws
end

