-- ==== Sys2Proof/Laws/Step.lean ====
section
/-! SUPPORT. What an edge, an event and a step can do, said once: each lemma names every case. -/

namespace Sys2Proof.Machine

/-- The cells of the dispatch table of R65: what one edge of an instruction can be. -/
theorem exec_cases {i : Instr} {s t : State} (h : exec i s = .next t) :
    (s.phase = .p0 ∧ t = fetchEdge s) ∨
    (∃ d r, i = .mv d r ∧ s.phase = .p1 ∧ t = moveEdge d r s) ∨
    (∃ d r, i = .mvi d r ∧ s.phase = .p1 ∧ t = moveDataEdge d s) ∨
    (∃ d r, (i = .add d r ∨ i = .sub d r) ∧ s.phase = .p1 ∧ t = accumulateEdge d s) ∨
    (∃ d r, i = .add d r ∧ s.phase = .p2 ∧ t = aluEdge false r s) ∨
    (∃ d r, i = .sub d r ∧ s.phase = .p2 ∧ t = aluEdge true r s) ∨
    (∃ d r, (i = .add d r ∨ i = .sub d r) ∧ s.phase = .p3 ∧ t = writeBackEdge d s) ∨
    ((∀ d r, i ≠ .add d r ∧ i ≠ .sub d r) ∧ s.phase ≠ .p0 ∧
      (s.phase = .p1 → ∃ o d r, i = .undef o d r) ∧ t = holdEdge s) := by
  cases i <;> cases hp : s.phase <;>
    simp [exec, execMv, execMvi, execAdd, execSub, execUndef, hp] at h ⊢ <;> exact h.symm

/-- An edge that no guard stops runs the held instruction (R60). -/
theorem clockEdge_of_proceeds {s : State} (h : edgeProceeds s = true) :
    clockEdge s = exec (decode s.ir) s := by
  simp [clockEdge, h]

/-- An edge that a guard stops changes nothing (R60). -/
theorem clockEdge_of_stopped {s : State} (h : edgeProceeds s = false) : clockEdge s = .next s := by
  simp [clockEdge, h]

/-- The row of an edge that proceeds, or the state unchanged (R60). -/
theorem clockEdge_cases {s t : State} (h : clockEdge s = .next t) :
    (edgeProceeds s = true ∧ exec (decode s.ir) s = .next t) ∨ (edgeProceeds s = false ∧ t = s) := by
  unfold clockEdge at h
  split at h
  · exact .inl ⟨‹_›, h⟩
  · exact .inr ⟨by simp_all, by simpa using h.symm⟩

/-- What one event can do to the state that receives it (R4). -/
theorem applyEvent_cases {e : Event} {s t : State} (h : applyEvent e s = .next t) :
    (∃ env, e = .environmentTick env ∧ t = environmentTick env s) ∨
    (e = .clockEdge ∧ clockEdge s = .next t) ∨
    (∃ src, e = .dataInputUpdate src ∧ t = dataInputUpdate src s) ∨
    (∃ id, e = .hoverFocus id ∧ t = s) := by
  cases e <;> simp [applyEvent] at h ⊢ <;> first | exact h | exact h.symm

/-- What a step can be: nothing when no event was sent, otherwise the oldest event (R4). -/
theorem step_cases {s t : State} (h : step s = .next t) :
    (s.events = [] ∧ t = s) ∨
    (∃ e rest, s.events = e :: rest ∧ applyEvent e (receive rest s) = .next t) := by
  unfold step at h
  split at h
  · rename_i he
    exact .inl ⟨he, by simpa using h.symm⟩
  · rename_i e rest he
    exact .inr ⟨e, rest, he, h⟩

/-- Every case of a step at once: which event was received and, for an edge that proceeds, which row of the
dispatch table (R60, R65) gives the next state. -/
theorem step_rows {s t : State} (h : step s = .next t) :
    (s.events = [] ∧ t = s) ∨
    (∃ env rest, s.events = .environmentTick env :: rest ∧ t = environmentTick env (receive rest s)) ∨
    (∃ src rest, s.events = .dataInputUpdate src :: rest ∧ t = dataInputUpdate src (receive rest s)) ∨
    (∃ id rest, s.events = .hoverFocus id :: rest ∧ t = receive rest s) ∨
    (∃ rest, s.events = .clockEdge :: rest ∧ edgeProceeds s = false ∧ t = receive rest s) ∨
    (∃ rest, s.events = .clockEdge :: rest ∧ edgeProceeds s = true ∧
      ((s.phase = .p0 ∧ t = fetchEdge (receive rest s)) ∨
       (s.phase = .p1 ∧ opcodeField s.ir = 0 ∧ 
          t = moveEdge (destField s.ir) (srcField s.ir) (receive rest s)) ∨
       (s.phase = .p1 ∧ opcodeField s.ir = 1 ∧ t = moveDataEdge (destField s.ir) (receive rest s)) ∨
       (s.phase = .p1 ∧ (opcodeField s.ir = 2 ∨ opcodeField s.ir = 3) ∧
          t = accumulateEdge (destField s.ir) (receive rest s)) ∨
       (s.phase = .p2 ∧ opcodeField s.ir = 2 ∧ t = aluEdge false (srcField s.ir) (receive rest s)) ∨
       (s.phase = .p2 ∧ opcodeField s.ir = 3 ∧ t = aluEdge true (srcField s.ir) (receive rest s)) ∨
       (s.phase = .p3 ∧ (opcodeField s.ir = 2 ∨ opcodeField s.ir = 3) ∧
          t = writeBackEdge (destField s.ir) (receive rest s)) ∨
       ((s.phase = .p2 ∨ s.phase = .p3) ∧ (opcodeField s.ir = 0 ∨ opcodeField s.ir = 1) ∧
          t = holdEdge (receive rest s)) ∨
       (s.phase ≠ .p0 ∧ 4 ≤ (opcodeField s.ir).toNat ∧ t = holdEdge (receive rest s)))) := by
  rcases step_cases h with ⟨h1, h2⟩ | ⟨e, rest, he, h⟩
  · exact .inl ⟨h1, h2⟩
  · rcases applyEvent_cases h with ⟨env, rfl, rfl⟩ | ⟨rfl, h⟩ | ⟨src, rfl, rfl⟩ | ⟨id, rfl, rfl⟩
    · exact .inr (.inl ⟨_, _, he, rfl⟩)
    · rcases clockEdge_cases h with ⟨hp, h⟩ | ⟨hp, rfl⟩
      · refine .inr (.inr (.inr (.inr (.inr ⟨rest, he, hp, ?_⟩))))
        have hd : decode (receive rest s).ir = decode s.ir := rfl
        rw [hd] at h
        rcases decode_cases s.ir with ⟨ho, e⟩ | ⟨ho, e⟩ | ⟨ho, e⟩ | ⟨ho, e⟩ | ⟨ho, e⟩ <;> rw [e] at h <;>
          cases hph : s.phase <;>
          simp [exec, execMv, execMvi, execAdd, execSub, execUndef, hph] at h <;> simp [ho, h]
      · exact .inr (.inr (.inr (.inr (.inl ⟨rest, he, hp, rfl⟩))))
    · exact .inr (.inr (.inl ⟨_, _, he, rfl⟩))
    · exact .inr (.inr (.inr (.inl ⟨_, _, he, rfl⟩)))

/-- An event that comes first is the one the step applies. -/
theorem step_cons {s : State} {e : Event} {rest : List Event} (h : s.events = e :: rest) :
    step s = applyEvent e (receive rest s) := by
  simp [step, h]

/-- A step without a pending event. -/
theorem step_nil {s : State} (h : s.events = []) : step s = .next s := by
  simp [step, h]

/-- Without events nothing happens. -/
@[simp] theorem afterEvents_nil (s : State) : afterEvents [] s = .next { s with events := [] } := rfl

/-- The first event is applied, then the others are received. -/
theorem afterEvents_cons {e : Event} {rest : List Event} {s t : State}
    (h : applyEvent e (receive rest s) = .next t) :
    afterEvents (e :: rest) s = afterEvents rest t := by
  have hs : step { s with events := e :: rest } = .next t := h
  simp [afterEvents, hs]

/-- A clock edge that proceeds and comes first runs the held instruction, then the others are received. -/
theorem afterEvents_edge {rest : List Event} {s t : State} (hp : edgeProceeds s = true)
    (h : exec (decode s.ir) (receive rest s) = .next t) :
    afterEvents (.clockEdge :: rest) s = afterEvents rest t :=
  afterEvents_cons (h ▸ clockEdge_of_proceeds hp)

end Sys2Proof.Machine
end

