-- ==== Sys2Proof/Tests/Slice0.lean ====
section
/-! SUPPORT. Tests: expected values come from the worked examples and vectors of spec/95_test_vectors.md and of the
rules named beside them. The witness theorems give, for each statement with hypotheses, a concrete state and
operands that meet all of them. -/

namespace Sys2Proof.Tests

open Sys2Proof.Machine

/-- One field of a next state. -/
def view {α : Type} (f : State → α) : Host.Outcome State Fault Refusal → Option α
  | .next s => some (f s)
  | .fault _ => none
  | .refused _ => none

/-- A core that has fetched `w` from `DIN` and stands at phase `p` with a clock edge pending. -/
def held (w : Word) (p : Phase) : State := { loadedWith w State.reset with phase := p }

/-- The same with two register values. -/
def heldWith (w : Word) (p : Phase) (i j : RegIdx) (x y : Word) : State :=
  { held w p with regs := writeReg (writeReg State.reset.regs i x) j y }

/-- A core at phase 0 with `done` false, the gate open and `w` in `DIN`. -/
def ready (w : Word) : State :=
  { State.reset with din := w, awaitingFirstRun := false, events := [.clockEdge] }

/-- An environment with `run` as given. -/
def env (run : Bool) : Environment := ⟨run, true, .dec, .dec⟩

/-! ### WellFormed: the one check, and what it refuses -/

theorem test_wf_undef_needs_high_opcode : ¬ (Instr.undef 3 1 2).WellFormed := by decide
theorem test_wf_undef_opcode_four : (Instr.undef 4 1 2).WellFormed := by decide

/-! ### Decode: words written out as opcode, dest, src, low7 (R50; vectors 2.1 and 2.2) -/

theorem test_decode_mv : decodeWord 0b000_011_101_0000000 = .mv 3 5 := by decide
theorem test_decode_mv_low7 : decodeWord 0b000_011_101_1111111 = .mv 3 5 := by decide
theorem test_decode_mvi : decodeWord 0b001_111_111_0000000 = .mvi 7 7 := by decide
theorem test_decode_add : decodeWord 0b010_000_001_0000000 = .add 0 1 := by decide
theorem test_decode_sub : decodeWord 0b011_010_011_0000000 = .sub 2 3 := by decide
theorem test_decode_undef : decodeWord 0b101_000_000_0000000 = .undef 5 0 0 := by decide
theorem test_decode_undef_all_ones : decode 0x1FF = .undef 7 7 7 := by decide
theorem test_fetch_ignores_low7 : fetchField 0x0EFF = 0x01D := by decide

/-! ### The opcode table's words -/

theorem test_table_decodes :
    [decodeTableWord 16 0x0000, decodeTableWord 16 0x2000, decodeTableWord 16 0x4000,
      decodeTableWord 16 0x6000, decodeTableWord 16 0x8000] =
    [some (.mv 0 0), some (.mvi 0 0), some (.add 0 0), some (.sub 0 0), some (.undef 4 0 0)] := by
  decide
theorem test_table_runs_mvi :
    view (fun t => (readReg t.regs 2, t.done)) (step (State.reset.withFetchWord 16 0x2800)) =
      some (0x2800, true) := by decide
theorem test_table_runs_add :
    view (fun t => (t.phase, t.wires.accumLoad)) (step (State.reset.withFetchWord 16 0x4080)) =
      some (.p2, true) := by decide
theorem test_table_runs_undef :
    view (fun t => (t.phase, t.done)) (step (State.reset.withFetchWord 16 0xA000)) =
      some (.p1, false) := by decide

/-! ### The mnemonic and literal encoders (vectors 2.3 and 2.4) -/

theorem test_mnemonic_mv : encodeMnemonic "mv R3 R5" = .ok 0x0E80 := by decide
theorem test_mnemonic_mvi : encodeMnemonic "mvi R7" = .ok 0x3C00 := by decide
theorem test_mnemonic_add : encodeMnemonic "add R2 R2" = .ok 0x4900 := by decide
theorem test_mnemonic_sub : encodeMnemonic "sub R7 R0" = .ok 0x7C00 := by decide
theorem test_mnemonic_trailing : encodeMnemonic "sub R2 R3 " = .error .malformedMnemonic := by decide
theorem test_mnemonic_index : encodeMnemonic "mv R1 R8" = .error .malformedMnemonic := by decide
theorem test_mnemonic_case : encodeMnemonic "MV R1 R2" = .error .malformedMnemonic := by decide
theorem test_mnemonic_spacing : encodeMnemonic "mv  R1 R2" = .error .malformedMnemonic := by decide
theorem test_mnemonic_immediate : encodeMnemonic "mvi R1 5" = .error .malformedMnemonic := by decide
theorem test_literal_octal : encodeLiteral .reject "777" .oct = .ok 0x01FF := by decide
theorem test_literal_binary : encodeLiteral .reject "1010000000000000" .bin = .ok 0xA000 := by decide
theorem test_literal_largest : encodeLiteral .reject "65535" .dec = .ok 0xFFFF := by decide
theorem test_literal_too_large :
    encodeLiteral .reject "65536" .dec = .error .invalidNumericLiteral := by decide
theorem test_literal_wrap : encodeLiteral .wrap "10000" .hex = .ok 0x0000 := by decide
theorem test_literal_letter :
    encodeLiteral .reject "G1" .hex = .error .invalidNumericLiteral := by decide
theorem test_literal_lower_case :
    encodeLiteral .reject "ff" .hex = .error .invalidNumericLiteral := by decide
theorem test_literal_empty : encodeLiteral .wrap "" .dec = .error .invalidNumericLiteral := by decide

/-! ### One edge of each instruction (vectors 2.6 to 2.8) -/

theorem test_mv_copies :
    view (fun t => (readReg t.regs 3, readReg t.regs 5, t.bus, t.done, t.phase))
      (exec (.mv 3 5) (heldWith 0x0E80 .p1 3 5 0x1234 0xBEEF)) =
      some (0xBEEF, 0xBEEF, 0xBEEF, true, .p0) := by decide
theorem test_mv_wires :
    view (fun t => t.wires) (exec (.mv 3 5) (heldWith 0x0E80 .p1 3 5 0x1234 0xBEEF)) =
      some { Wires.off with
        regOut := #v[false, false, false, false, false, true, false, false]
        regLoad := #v[false, false, false, true, false, false, false, false] } := by decide
theorem test_mvi_takes_whole_word :
    view (fun t => (readReg t.regs 3, t.bus)) (exec (.mvi 3 0) (held 0x2C7F .p1)) =
      some (0x2C7F, 0x2C7F) := by decide
theorem test_mvi_ignores_src :
    view (fun t => readReg t.regs 7) (exec (.mvi 7 7) { held 0x3F80 .p1 with din := 0x1234 }) =
      some 0x1234 := by decide
theorem test_add_wraps :
    view (fun t => (t.g, t.bus, t.wires.aluResultWire, t.wires.subtractMode, t.phase))
      (exec (.add 0 1) { heldWith 0x4080 .p2 0 1 0xFFFF 0x0001 with a := 0xFFFF }) =
      some (0x0000, 0x0001, 0x0000, false, .p3) := by decide
theorem test_add_writes_back :
    view (fun t => (readReg t.regs 4, t.wires.aluResultOut, t.done, t.phase))
      (exec (.add 4 4) { heldWith 0x5200 .p3 4 4 0x4000 0x4000 with g := 0x8000 }) =
      some (0x8000, true, true, .p0) := by decide
theorem test_sub_operand_order :
    view (fun t => (t.g, t.wires.subtractMode))
      (exec (.sub 0 1) { heldWith 0x6080 .p2 0 1 0x0003 0x0005 with a := 0x0003 }) =
      some (0xFFFE, true) := by decide
theorem test_sub_accumulates_dest :
    view (fun t => (t.a, t.bus, t.wires.accumLoad, t.phase))
      (exec (.sub 2 3) (heldWith 0x6980 .p1 2 3 0x8000 0x0001)) =
      some (0x8000, 0x8000, true, .p2) := by decide
theorem test_undef_holds :
    view (fun t => (t.phase, t.done, t.wires))
      (exec (.undef 5 0 0) { held 0xA000 .p1 with wires := { Wires.off with irLoad := true } }) =
      some (.p1, false, Wires.off) := by decide
theorem test_undef_holds_late :
    view (fun t => (t.phase, t.ir)) (exec (.undef 6 0 0) (held 0xC000 .p2)) =
      some (.p2, 0x180) := by decide

/-! ### The sequencer and the host's events (vectors 2.5, 2.9; R61, R76) -/

theorem test_first_edge_fetches :
    view (fun t => (t.awaitingFirstRun, t.ir, t.phase, t.wires.irLoad))
      (step { State.reset with run := true, din := 0x0E80, events := [.clockEdge] }) =
      some (false, 0x01D, .p1, true) := by decide
theorem test_first_run_gate :
    step { State.reset with din := 0x2000, events := [.clockEdge] } =
      .next { State.reset with din := 0x2000 } := by rfl
theorem test_completion_hold :
    view (fun t => (t.phase, t.done, t.wires.irLoad))
      (step { ready 0x4080 with done := true }) = some (.p0, true, false) := by decide
theorem test_done_clear_edge :
    view (fun t => (t.ir, t.phase, t.done)) (step { ready 0x4080 with done := true, run := true }) =
      some (0x081, .p0, false) := by decide
theorem test_done_at_phase_one :
    view (fun t => (t.phase, t.a))
      (step { heldWith 0x4080 .p1 0 1 7 9 with done := true, run := true }) = some (.p0, 7) := by decide
theorem test_tick_clear :
    view (fun t => (t.wires.clear, t.run))
      (step { ready 0 with done := true, events := [.environmentTick ⟨false, false, .hex, .bin⟩] }) =
      some (true, false) := by decide
theorem test_rejected_update :
    view (fun t => (t.din, t.reply))
      (step { ready 0x1234 with events := [.dataInputUpdate (.literal "G1" .hex)] }) =
      some (0x1234, some .invalidNumericLiteral) := by decide

/-! ### Witnesses: every hypothesis of a statement can be met -/

theorem witness_FieldsOfEveryWord :
    (ready 0x4080).events = [.clockEdge] ∧ edgeProceeds (ready 0x4080) = true := by decide
theorem witness_DecodeInvertsEncode :
    (Instr.mv 7 0).WellFormed ∧ (Instr.mvi 0 7).WellFormed ∧ (Instr.add 7 7).WellFormed ∧
      (Instr.sub 0 0).WellFormed ∧ (Instr.undef 4 0 7).WellFormed ∧ (Instr.undef 7 7 7).WellFormed := by
  decide
theorem witness_NoEventNoChange : State.reset.events = [] := by decide
theorem witness_StepNeverStops :
    encodeSource (.mnemonic "nop") = .error .malformedMnemonic ∧
      encodeSource (.literal "" .bin) = .error .invalidNumericLiteral ∧
      (view (fun t => t.reply) (step { ready 0 with events := [.dataInputUpdate (.mnemonic "nop")] })).isSome := by
  decide
theorem witness_StepRunsHeldInstruction :
    (held 0x6980 .p2).events = [.clockEdge] ∧ edgeProceeds (held 0x6980 .p2) = true ∧
      decode (held 0x6980 .p2).ir = .sub 2 3 ∧ (Instr.sub 2 3).WellFormed := by decide
theorem witness_GuardedEdgeChangesNothing :
    ({ ready 0 with done := true } : State).events = [.clockEdge] ∧
      ({ ready 0 with done := true } : State).run = false ∧
      ({ ready 0 with awaitingFirstRun := true } : State).awaitingFirstRun = true := by decide
theorem witness_EnvironmentTickSamplesInputs :
    ({ ready 0 with events := [.environmentTick (env true)] } : State).events =
      [.environmentTick (env true)] := by decide
theorem witness_HoverFocusIsIdentity :
    ({ ready 0 with events := [.hoverFocus "bus"] } : State).events = [.hoverFocus "bus"] := by decide
theorem witness_DataInputUpdateWritesOnlyDin :
    ({ ready 0 with events := [.dataInputUpdate (.mnemonic "mvi R0")] } : State).events =
      [.dataInputUpdate (.mnemonic "mvi R0")] ∧
      encodeSource (.mnemonic "mvi R0") = .ok 0x2000 ∧
      encodeSource (.literal "8" .oct) = .error .invalidNumericLiteral := by decide
theorem witness_HostEventsLeaveExecution :
    Quiet [.environmentTick (env false), .dataInputUpdate (.literal "5" .dec), .hoverFocus "g"] := by
  decide
theorem witness_MnemonicEncoderAcceptsFourForms :
    encodeMnemonic "mv R0 R7" = .ok 0x0380 ∧ encodeMnemonic "mvi R0" = .ok 0x2000 ∧
      encodeMnemonic "add R7 R7" = .ok 0x5F80 ∧ encodeMnemonic "sub R0 R0" = .ok 0x6000 ∧
      encodeMnemonic "" = .error .malformedMnemonic := by decide
theorem witness_LiteralEncoderStoresDigitValue :
    "2".toList ≠ [] ∧ '2' ∈ "2".toList ∧ '2' ∉ "0123456789ABCDEF".toList.take Radix.bin.base ∧
      (∀ d ∈ [6, 5, 5, 3, 5], d < Radix.dec.base) ∧ (∀ d ∈ [1, 0, 0, 0, 0], d < Radix.hex.base) ∧
      "65535".toList.map some = [6, 5, 5, 3, 5].map (fun d => "0123456789ABCDEF".toList[d]?) ∧
      "10000".toList.map some = [1, 0, 0, 0, 0].map (fun d => "0123456789ABCDEF".toList[d]?) := by
  decide
theorem witness_UndefinedOpcodeOnlyFromLiteral :
    (ready 0).din.getLsbD 15 = false ∧
      view (fun t => t.din.getLsbD 15)
        (step { ready 0 with events := [.dataInputUpdate (.literal "8000" .hex)] }) = some true := by decide
theorem witness_FetchAtPhaseZero : (ready 0).phase = .p0 := by decide
theorem witness_MvCopiesRegister : (held 0x0E80 .p1).phase = .p1 := by decide
theorem witness_MviStoresDataInput :
    (held 0x2800 .p1).phase = .p1 ∧ (ready 0x2800).phase = .p0 ∧ (ready 0x2800).done = false ∧ edgeProceeds (ready 0x2800) = true ∧
      decodeWord (ready 0x2800).din = .mvi 2 0 := by decide
theorem witness_AddPhases :
    (held 0x4080 .p1).phase = .p1 ∧ (held 0x4080 .p2).phase = .p2 ∧ (held 0x4080 .p3).phase = .p3 := by
  decide
theorem witness_SubPhases :
    (held 0x6980 .p1).phase = .p1 ∧ (held 0x6980 .p2).phase = .p2 ∧ (held 0x6980 .p3).phase = .p3 := by
  decide
theorem witness_MovesHoldAtLatePhases :
    (held 0x0500 .p2).phase = .p2 ∧ (held 0x2400 .p3).phase = .p3 := by decide
theorem witness_MvCompletesInTwoEdges :
    (ready 0x0E80).phase = .p0 ∧ (ready 0x0E80).done = false ∧ edgeProceeds (ready 0x0E80) = true ∧
      decodeWord (ready 0x0E80).din = .mv 3 5 ∧
      Quiet [.environmentTick (env false), .dataInputUpdate (.literal "FFFF" .hex)] := by decide
theorem witness_AddCompletesInFourEdges :
    (ready 0x4080).phase = .p0 ∧ (ready 0x4080).done = false ∧ edgeProceeds (ready 0x4080) = true ∧
      decodeWord (ready 0x4080).din = .add 0 1 ∧
      Quiet [.environmentTick (env false), .dataInputUpdate (.literal "FFFF" .hex)] ∧
      Quiet [.hoverFocus "a"] ∧
      Quiet [] := by decide
theorem witness_SubCompletesInFourEdges :
    (ready 0x7F80).phase = .p0 ∧ (ready 0x7F80).done = false ∧ edgeProceeds (ready 0x7F80) = true ∧
      decodeWord (ready 0x7F80).din = .sub 7 7 ∧
      Quiet [.environmentTick (env false), .dataInputUpdate (.literal "FFFF" .hex)] ∧
      Quiet [.hoverFocus "a"] ∧
      Quiet [] := by decide
theorem witness_EdgeCounts :
    (ready 0x2000).phase = .p0 ∧ (ready 0x2000).done = false ∧ edgeProceeds (ready 0x2000) = true ∧
      (opcodeField (fetchField (ready 0x2000).din)).toNat = 1 ∧
      (opcodeField (fetchField (ready 0x4000).din)).toNat = 2 ∧
      (opcodeField (fetchField (ready 0x6000).din)).toNat = 3 ∧
      (opcodeField (fetchField (ready 0x8000).din)).toNat = 4 := by decide
theorem witness_UndefinedOpcodeStalls : (held 0xA000 .p1).Stalled ∧ (held 0xFFFF .p3).Stalled ∧
    (held 0xA000 .p1).awaitingFirstRun = false ∧ (held 0xA000 .p1).events = [.clockEdge] ∧
    (held 0xA000 .p1).wires = Wires.off ∧ (ready 0x8000).phase = .p0 ∧ (ready 0x8000).done = false ∧
    edgeProceeds (ready 0x8000) = true ∧ (ready 0x8000).din.getLsbD 15 = true :=
  ⟨⟨by decide, by decide, by decide⟩, ⟨by decide, by decide, by decide⟩, by decide, by decide, by decide,
    by decide, by decide, by decide, by decide⟩
theorem witness_StepKeepsConsistent :
    (held 0x4080 .p2).Consistent ∧ (view (fun t => t.phase) (step (held 0x4080 .p2))).isSome :=
  ⟨⟨by decide, fun _ => .inl rfl, fun h => absurd h (by decide), by decide⟩, by decide⟩
/-- `R5` was just copied into `R3`: both register wires are set and both registers hold the bus value. -/
def copied : State :=
  { heldWith 0x0E80 .p0 3 5 0xBEEF 0xBEEF with
    bus := 0xBEEF
    done := true
    run := true
    wires := { Wires.off with regOut := onlyWire 5, regLoad := onlyWire 3 } }
theorem witness_StepKeepsWiresRecord :
    copied.WiresRecord ∧ (view (fun t => t.phase) (step copied)).isSome :=
  ⟨⟨by decide, by decide, by decide, by decide, by decide, by decide, by decide, by decide, by decide,
    ⟨fun _ => ⟨3, by decide⟩, fun _ => by decide⟩⟩, by decide⟩
/-- The rules about every step (PhaseAdvanceRule, DoneFlagRule, GeneralRegisterRule, BusRule,
DisplayStateIsNeverRead, AccumulatorRule) ask only for a next state. -/
theorem witness_EveryStepRules :
    ∀ s ∈ [State.reset, ready 0, held 0x0E80 .p1, held 0x2800 .p1, held 0x4080 .p1, held 0x4080 .p2,
      held 0x6980 .p2, held 0x6980 .p3, held 0xA000 .p3, held 0x0E80 .p2],
      (view (fun t => t.phase) (step s)).isSome := by decide
theorem witness_AluResultRule :
    (view (fun t => t.g) (step (held 0x4080 .p2))).isSome ∧ (held 0x4080 .p2).phase ≠ .p3 := by decide
theorem witness_InstructionRegisterRule :
    (view (fun t => t.ir) (step (ready 0x4080))).isSome ∧ ¬ (ready 0x4080).phase ≠ .p0 ∧
      (ready 0x4080).events = [.clockEdge] ∧ edgeProceeds (ready 0x4080) = true := by decide
theorem witness_EnvironmentInputsRule :
    (view (fun t => t.run) (step (ready 0))).isSome ∧
      (ready 0).events.head? = some .clockEdge := by decide
theorem witness_DataInputRule :
    (view (fun t => t.din) (step (ready 0x4080))).isSome ∧ (ready 0x4080).phase ≠ .p1 ∧
    (0x40FF : Word).extractLsb' 7 9 = (ready 0x4080).din.extractLsb' 7 9 ∧
      encodeSource (.mnemonic "add R0 R1") = .ok 0x4080 := by decide
theorem witness_FirstRunGateRule :
    ({ State.reset with events := [.clockEdge] } : State).awaitingFirstRun = true ∧
      ({ State.reset with events := [.clockEdge] } : State).run = false ∧
      ({ State.reset with run := true, events := [.clockEdge] } : State).run = true := by decide
theorem witness_MviTakesLastUpdate :
    Quiet [.environmentTick (env true)] ∧ Quiet [.hoverFocus "din"] ∧
      (∀ e ∈ [Event.hoverFocus "din"], ∀ src' w, e = .dataInputUpdate src' → encodeSource src' ≠ .ok w) ∧
      encodeSource (.literal "FFFF" .hex) = .ok 0xFFFF ∧ (ready 0x2800).phase = .p0 ∧
      (ready 0x2800).done = false ∧ edgeProceeds (ready 0x2800) = true ∧
      decodeWord (ready 0x2800).din = .mvi 2 0 :=
  ⟨by decide, by decide, by simp, by decide, by decide, by decide, by decide, by decide⟩
theorem witness_WaitingConditions :
    State.reset.run = false ∧ State.reset.awaitingFirstRun = true ∧
      ({ ready 0 with done := true } : State).run = false ∧
      ({ ready 0 with done := true } : State).done = true ∧ (env true).run = true ∧
      (held 0xA000 .p1).Stalled :=
  ⟨by decide, by decide, by decide, by decide, by decide, ⟨by decide, by decide, by decide⟩⟩
theorem witness_HoldOutlastsOtherEvents :
    ({ ready 0 with done := true } : State).run = false ∧ ({ ready 0 with done := true } : State).done = true ∧
      (env false).run = false := by decide
theorem witness_DoneClearEdgeFetchesTwice :
    ({ ready 0 with done := true, run := true } : State).phase = .p0 ∧
      ({ ready 0 with done := true, run := true } : State).done = true ∧
      ({ ready 0 with done := true, run := true } : State).run = true ∧
      encodeSource (.mnemonic "mv R6 R7") = .ok 0x1B80 := by decide
theorem witness_OneInstructionWithRunLow :
    ({ ready 0x1B80 with done := true } : State).phase = .p0 ∧
      ({ ready 0x1B80 with done := true } : State).done = true ∧ (env true).run = true ∧
      (env false).run = false ∧ decodeWord ({ ready 0x1B80 with done := true } : State).din = .mv 6 7 ∧
      decodeWord ({ ready 0x3C00 with done := true } : State).din = .mvi 7 0 ∧
      decodeWord ({ ready 0x4900 with done := true } : State).din = .add 2 2 ∧
      decodeWord ({ ready 0x7C00 with done := true } : State).din = .sub 7 0 := by
  decide
theorem witness_BootFetchesFirstWord :
    encodeSource (.mnemonic "mvi R0") = .ok 0x2000 ∧ (env true).run = true := by decide

end Sys2Proof.Tests
end

section
/-! PROOFS. The family of spec/10_state.md: who writes and who reads `A` (R22), `IR` (R24) and the first-run gate
(R29). A step is either an edge that proceeds, which runs one row of the dispatch table (R65), or it leaves all that
execution writes unchanged; a field that only the rows read can be changed under every other step. -/

namespace Sys2Proof.Machine

/-! ### The edge that proceeds -/

/-- The next event is a clock edge and no entry guard stops it (R60). -/
abbrev EdgeRuns (s : State) : Prop := s.events.head? = some .clockEdge ∧ edgeProceeds s = true

/-- The cell of the dispatch table of R65 in the column of `i` and the row of a phase. -/
def edgeRow : Instr → Phase → State → State
  | _, .p0 => fetchEdge
  | .mv dest src, .p1 => moveEdge dest src
  | .mvi dest _, .p1 => moveDataEdge dest
  | .add dest _, .p1 => accumulateEdge dest
  | .sub dest _, .p1 => accumulateEdge dest
  | .add _ src, .p2 => aluEdge false src
  | .sub _ src, .p2 => aluEdge true src
  | .add dest _, .p3 => writeBackEdge dest
  | .sub dest _, .p3 => writeBackEdge dest
  | _, _ => holdEdge

/-- Every instruction's meaning is its cell of the table at the phase before the edge. -/
theorem exec_eq_edgeRow (i : Instr) (s : State) : exec i s = .next (edgeRow i s.phase s) := by
  cases i <;> cases hp : s.phase <;>
    simp [exec, execMv, execMvi, execAdd, execSub, execUndef, edgeRow, hp]

@[simp] theorem edgeRow_p0 (i : Instr) : edgeRow i .p0 = fetchEdge := by
  cases i <;> rfl

/-- Only the fetch of phase 0 writes `IR` (R24, R66). -/
theorem edgeRow_ir (i : Instr) (p : Phase) (s : State) :
    (edgeRow i p s).ir = if p = .p0 then fetchField s.din else s.ir := by
  cases i <;> cases p <;> rfl

/-- Every row opens the first-run gate (R61). -/
@[simp] theorem edgeRow_awaitingFirstRun (i : Instr) (p : Phase) (s : State) :
    (edgeRow i p s).awaitingFirstRun = false := by
  cases i <;> cases p <;> rfl

/-- No row drives the bus from `A` (R22). -/
@[simp] theorem edgeRow_accumOut (i : Instr) (p : Phase) (s : State) :
    (edgeRow i p s).wires.accumOut = false := by
  cases i <;> cases p <;> rfl

/-- Only phase 1 of `add` and `sub` writes `A` (R72, R73). -/
theorem edgeRow_a (ir : IrWord) (p : Phase) (s : State) :
    (edgeRow (decode ir) p s).a =
      if p = .p1 ∧ (opcodeField ir = 2 ∨ opcodeField ir = 3) then readReg s.regs (destField ir)
      else s.a := by
  rcases decode_cases ir with ⟨ho, hi⟩ | ⟨ho, hi⟩ | ⟨ho, hi⟩ | ⟨ho, hi⟩ | ⟨ho, hi⟩
  case inr.inr.inr.inr =>
    have hno : ¬ (opcodeField ir = 2 ∨ opcodeField ir = 3) := by
      rintro (e | e) <;> simp [e] at ho
    rw [if_neg fun hp => hno hp.2, hi]
    cases p <;> rfl
  all_goals cases p <;> simp [hi, ho, edgeRow]

/-- An edge that comes first and proceeds runs the instruction held in `IR` (R60). -/
theorem step_edge_exec {s : State} {rest : List Event} (he : s.events = .clockEdge :: rest)
    (hp : edgeProceeds s = true) : step s = exec (decode s.ir) (receive rest s) :=
  (step_cons he).trans (clockEdge_of_proceeds hp)

/-- An edge that comes first and is stopped is received without effect (R60). -/
theorem step_edge_stopped {s : State} {rest : List Event} (he : s.events = .clockEdge :: rest)
    (hp : edgeProceeds s = false) : step s = .next (receive rest s) :=
  (step_cons he).trans (clockEdge_of_stopped hp)

/-- The row that a step of an edge that proceeds takes. -/
theorem step_edgeRuns {s : State} (hr : EdgeRuns s) :
    step s = .next (edgeRow (decode s.ir) s.phase (receive s.events.tail s)) := by
  have he : s.events = .clockEdge :: s.events.tail := List.eq_cons_of_mem_head? hr.1
  exact (step_edge_exec he hr.2).trans (exec_eq_edgeRow _ _)

/-- The next state of an edge that proceeds. -/
theorem eq_edgeRow_of_step {s t : State} (h : step s = .next t) (hr : EdgeRuns s) :
    t = edgeRow (decode s.ir) s.phase (receive s.events.tail s) :=
  Host.Outcome.next.inj (h.symm.trans (step_edgeRuns hr))

/-! ### Every other step -/

/-- Every case of a step that is no edge that proceeds. -/
theorem step_idle_cases {s t : State} (h : step s = .next t) (hn : ¬ EdgeRuns s) :
    (s.events = [] ∧ t = s) ∨
    (∃ env rest, s.events = .environmentTick env :: rest ∧ t = environmentTick env (receive rest s)) ∨
    (∃ src rest, s.events = .dataInputUpdate src :: rest ∧ t = dataInputUpdate src (receive rest s)) ∨
    (∃ id rest, s.events = .hoverFocus id :: rest ∧ t = receive rest s) ∨
    (∃ rest, s.events = .clockEdge :: rest ∧ edgeProceeds s = false ∧ t = receive rest s) := by
  rcases step_rows h with hc | hc | hc | hc | hc | ⟨rest, he, hp, -⟩
  · exact .inl hc
  · exact .inr (.inl hc)
  · exact .inr (.inr (.inl hc))
  · exact .inr (.inr (.inr (.inl hc)))
  · exact .inr (.inr (.inr (.inr hc)))
  · exact absurd ⟨by simp [he], hp⟩ hn

/-- `t` has everything of `s` that the rows of the dispatch table write, except the display wire `clear`. -/
structure SameExecution (s t : State) : Prop where
  regs : t.regs = s.regs
  a : t.a = s.a
  g : t.g = s.g
  ir : t.ir = s.ir
  phase : t.phase = s.phase
  done : t.done = s.done
  awaitingFirstRun : t.awaitingFirstRun = s.awaitingFirstRun
  wires : t.wires = { s.wires with clear := t.wires.clear }
  bus : t.bus = s.bus

/-- Only an edge that proceeds executes: every other step keeps what the rows write. -/
theorem sameExecution_of_idle {s t : State} (h : step s = .next t) (hn : ¬ EdgeRuns s) :
    SameExecution s t := by
  rcases step_idle_cases h hn with
    ⟨-, rfl⟩ | ⟨env, rest, -, rfl⟩ | ⟨src, rest, -, rfl⟩ | ⟨id, rest, -, rfl⟩ | ⟨rest, -, -, rfl⟩
  case inr.inr.inl =>
    rcases dataInputUpdate_cases src (receive rest s) with ⟨w, -, hw⟩ | ⟨k, -, hk⟩
    · rw [hw]; constructor <;> rfl
    · rw [hk]; constructor <;> rfl
  all_goals constructor <;> rfl

/-- `f` changes only what no event but an edge that proceeds reads or writes. -/
structure OnlyRowsSee (f : State → State) : Prop where
  events : ∀ s, (f s).events = s.events
  edgeProceeds : ∀ s, edgeProceeds (f s) = edgeProceeds s
  receive : ∀ rest s, receive rest (f s) = f (receive rest s)
  tick : ∀ env s, environmentTick env (f s) = f (environmentTick env s)
  din : ∀ (w : Word) (s : State), { f s with din := w } = f { s with din := w }
  reply : ∀ (k : Rejection) (s : State), { f s with reply := some k } = f { s with reply := some k }

/-- A data-input update commutes with such a change, whether it is accepted or rejected. -/
theorem OnlyRowsSee.update {f : State → State} (hf : OnlyRowsSee f) (src : DataSource) (s : State) :
    dataInputUpdate src (f s) = f (dataInputUpdate src s) := by
  unfold dataInputUpdate
  cases encodeSource src with
  | ok w => exact hf.din w s
  | error k => exact hf.reply k s

/-- Such a change stays as it is, and changes nothing else, over every step but an edge that proceeds. -/
theorem OnlyRowsSee.step_idle {f : State → State} (hf : OnlyRowsSee f) {s t : State}
    (h : step s = .next t) (hn : ¬ EdgeRuns s) : step (f s) = .next (f t) := by
  rcases step_idle_cases h hn with
    ⟨he, rfl⟩ | ⟨env, rest, he, rfl⟩ | ⟨src, rest, he, rfl⟩ | ⟨id, rest, he, rfl⟩ | ⟨rest, he, hp, rfl⟩
  · exact step_nil ((hf.events _).trans he)
  · simp [step_cons ((hf.events s).trans he), applyEvent, hf.receive, hf.tick]
  · simp [step_cons ((hf.events s).trans he), applyEvent, hf.receive, hf.update]
  · simp [step_cons ((hf.events s).trans he), applyEvent, hf.receive]
  · rw [step_edge_stopped ((hf.events s).trans he) ((hf.edgeProceeds s).trans hp), hf.receive]

/-! ### The accumulator (R22) -/

/-- The state with another value in `A`. -/
def State.setA (x : Word) (s : State) : State := { s with a := x }

theorem onlyRowsSee_setA (x : Word) : OnlyRowsSee (State.setA x) := by
  constructor <;> intros <;> rfl

/-- What a row computes from `A` is in `A`, `G` and the ALU wire alone; the bus is not among them. -/
theorem edgeRow_setA (i : Instr) (p : Phase) (x : Word) (s : State) :
    edgeRow i p (s.setA x) =
      { edgeRow i p s with
        a := (edgeRow i p (s.setA x)).a
        g := (edgeRow i p (s.setA x)).g
        wires := { (edgeRow i p s).wires with
          aluResultWire := (edgeRow i p (s.setA x)).wires.aluResultWire } } := by
  cases i <;> cases p <;> rfl

/-- Outside phase 2 of `add` and `sub` no row computes `G` or the ALU wire from `A`. -/
theorem edgeRow_setA_alu {ir : IrWord} {p : Phase} (x : Word) (s : State)
    (hn : ¬ (p = .p2 ∧ (opcodeField ir = 2 ∨ opcodeField ir = 3))) :
    (edgeRow (decode ir) p (s.setA x)).g = (edgeRow (decode ir) p s).g ∧
      (edgeRow (decode ir) p (s.setA x)).wires.aluResultWire =
        (edgeRow (decode ir) p s).wires.aluResultWire := by
  rcases decode_cases ir with ⟨ho, hi⟩ | ⟨ho, hi⟩ | ⟨ho, hi⟩ | ⟨ho, hi⟩ | ⟨ho, hi⟩ <;> rw [hi] <;>
    cases p
  case inr.inr.inl.p2 => exact absurd ⟨rfl, .inl ho⟩ hn
  case inr.inr.inr.inl.p2 => exact absurd ⟨rfl, .inr ho⟩ hn
  all_goals exact ⟨rfl, rfl⟩

/-- `A` over a whole step: only phase 1 of `add` and `sub` writes it. -/
theorem step_a {s t : State} (h : step s = .next t) :
    t.a = if s.events.head? = some .clockEdge ∧ edgeProceeds s = true ∧ s.phase = .p1 ∧
        (opcodeField s.ir = 2 ∨ opcodeField s.ir = 3) then readReg s.regs (destField s.ir) else s.a := by
  by_cases hr : EdgeRuns s
  · rw [eq_edgeRow_of_step h hr, edgeRow_a]
    simp [hr.1, hr.2]
  · rw [(sameExecution_of_idle h hr).a, if_neg fun ⟨he, hp, _⟩ => hr ⟨he, hp⟩]

/-- No step asserts `accum_out`. -/
theorem step_keeps_accumOut_off {s t : State} (h : step s = .next t) (hs : s.wires.accumOut = false) :
    t.wires.accumOut = false := by
  by_cases hr : EdgeRuns s
  · rw [eq_edgeRow_of_step h hr, edgeRow_accumOut]
  · rw [(sameExecution_of_idle h hr).wires]
    exact hs

/-- Noninterference of `A`: a step carries another value of `A` into `A`, `G` and the ALU wire alone, and into the
last two only at phase 2 of `add` and `sub`. -/
theorem step_setA {s t : State} (x : Word) (h : step s = .next t) :
    ∃ y g w : Word,
      step (s.setA x) =
        .next { t with a := y, g := g, wires := { t.wires with aluResultWire := w } } ∧
      (¬ (s.events.head? = some .clockEdge ∧ edgeProceeds s = true ∧ s.phase = .p2 ∧
          (opcodeField s.ir = 2 ∨ opcodeField s.ir = 3)) →
        g = t.g ∧ w = t.wires.aluResultWire) := by
  by_cases hr : EdgeRuns s
  · obtain rfl := eq_edgeRow_of_step h hr
    have hx : step (s.setA x) =
        .next (edgeRow (decode s.ir) s.phase ((receive s.events.tail s).setA x)) :=
      step_edgeRuns (s := s.setA x) hr
    rw [edgeRow_setA] at hx
    exact ⟨_, _, _, hx, fun hn => edgeRow_setA_alu x _ fun ha => hn ⟨hr.1, hr.2, ha⟩⟩
  · exact ⟨x, t.g, t.wires.aluResultWire, (onlyRowsSee_setA x).step_idle h hr, fun _ => ⟨rfl, rfl⟩⟩

/-- Settles O29: the writer and the readers of `A` by whether the step is an edge that proceeds, and then by its row. -/
theorem accumulatorRule : Obligations.AccumulatorRule :=
  ⟨rfl, fun _ _ h => ⟨step_a h, step_keeps_accumOut_off h⟩, fun _ _ x h => step_setA x h⟩

/-! ### The instruction register (R24) -/

/-- The state with another word in `IR`. -/
def State.setIr (x : IrWord) (s : State) : State := { s with ir := x }

theorem onlyRowsSee_setIr (x : IrWord) : OnlyRowsSee (State.setIr x) := by
  constructor <;> intros <;> rfl

/-- `IR` over a whole step: only the fetch writes it. -/
theorem step_ir {s t : State} (h : step s = .next t) :
    t.ir = if s.events.head? = some .clockEdge ∧ edgeProceeds s = true ∧ s.phase = .p0 then
      s.din.extractLsb' 7 9 else s.ir := by
  by_cases hr : EdgeRuns s
  · rw [eq_edgeRow_of_step h hr, edgeRow_ir]
    simp [hr.1, hr.2, fetchField]
  · rw [(sameExecution_of_idle h hr).ir, if_neg fun ⟨he, hp, _⟩ => hr ⟨he, hp⟩]

/-- An edge that proceeds at phase 0 fetches, whatever `IR` holds: the old word is overwritten unread. -/
theorem step_setIr_fetch {s : State} (x : IrWord) (hr : EdgeRuns s) (h0 : s.phase = .p0) :
    step (s.setIr x) = step s := by
  have hx := step_edgeRuns (s := s.setIr x) hr
  rw [show (s.setIr x).phase = .p0 from h0, edgeRow_p0] at hx
  rw [step_edgeRuns hr, h0, edgeRow_p0, hx]
  rfl

/-- Noninterference of `IR`: outside phases 1 to 3 of an edge that proceeds, another word in `IR` changes nothing
but `IR`. -/
theorem step_setIr {s t : State} (x : IrWord) (h : step s = .next t)
    (hn : ¬ (s.events.head? = some .clockEdge ∧ edgeProceeds s = true ∧ s.phase ≠ .p0)) :
    ∃ y : IrWord, step (s.setIr x) = .next { t with ir := y } := by
  by_cases hr : EdgeRuns s
  · have h0 : s.phase = .p0 := by_contra fun hp => hn ⟨hr.1, hr.2, hp⟩
    exact ⟨t.ir, (step_setIr_fetch x hr h0).trans h⟩
  · exact ⟨x, (onlyRowsSee_setIr x).step_idle h hr⟩

/-- Settles O31: only the fetch of an edge that proceeds writes `IR`, only the other rows read it. -/
theorem instructionRegisterRule : Obligations.InstructionRegisterRule :=
  ⟨rfl, by decide, fun _ _ h => step_ir h, fun _ _ x h hn => step_setIr x h hn,
    fun _ _ he hp => step_edge_exec he hp⟩

/-! ### The first-run gate (R29) -/

/-- While the gate is closed an edge proceeds exactly when `run` is true (R61). -/
theorem edgeProceeds_of_awaiting {s : State} (ha : s.awaitingFirstRun = true) :
    edgeProceeds s = true ↔ s.run = true := by
  simp [edgeProceeds_iff, ha]

/-- The gate over a whole step: it stays closed until the first edge with `run` true. -/
theorem step_awaitingFirstRun {s t : State} (h : step s = .next t) :
    t.awaitingFirstRun = true ↔
      s.awaitingFirstRun = true ∧ ¬ (s.events.head? = some .clockEdge ∧ s.run = true) := by
  by_cases hr : EdgeRuns s
  · have hopen : t.awaitingFirstRun = false := by
      rw [eq_edgeRow_of_step h hr, edgeRow_awaitingFirstRun]
    have hrun : s.awaitingFirstRun = true → s.run = true := fun ha =>
      (edgeProceeds_of_awaiting ha).1 hr.2
    simpa [hopen, hr.1] using hrun
  · have hstop : s.awaitingFirstRun = true → ¬ (s.events.head? = some .clockEdge ∧ s.run = true) :=
      fun ha ⟨he, hrun⟩ => hr ⟨he, (edgeProceeds_of_awaiting ha).2 hrun⟩
    rw [(sameExecution_of_idle h hr).awaitingFirstRun, iff_self_and]
    exact hstop

/-- Settles O33: a closed gate lets an edge through exactly when `run` is true, and the edge that passes opens it. -/
theorem firstRunGateRule : Obligations.FirstRunGateRule := by
  refine ⟨rfl, fun _ _ h => step_awaitingFirstRun h, fun s rest he ha => ⟨fun hrun => ?_, fun hrun => ?_⟩⟩
  · have hp : edgeProceeds s = false := by
      simp [← Bool.not_eq_true, edgeProceeds_of_awaiting ha, hrun]
    exact step_edge_stopped he hp
  · exact step_edge_exec he ((edgeProceeds_of_awaiting ha).2 hrun)

end Sys2Proof.Machine
end

section
/-! PROOFS. The family of spec/30_encoding.md: the fields of a 9-bit word and the instruction they name (R51, R52). -/

namespace Sys2Proof

/-- Keeping the three bits from `k` up and shifting them down is the remainder of the shifted word. -/
theorem and_mask_shiftRight (n k : Nat) : (n &&& (2 ^ 3 - 1) <<< k) >>> k = (n >>> k) % 2 ^ 3 := by
  rw [Nat.shiftRight_and_distrib, Nat.shiftLeft_shiftRight, Nat.and_two_pow_sub_one_eq_mod]

/-- The opcode is the whole of what a shift by 6 leaves: a word has no bit above bit 8 (R51). -/
theorem opcodeField_toNat (ir : IrWord) : (opcodeField ir).toNat = ir.toNat >>> 6 := by
  have hlt : ir.toNat < 2 ^ 9 := ir.isLt
  have htop : ir.toNat >>> 6 < 2 ^ 3 := by omega
  rw [opcodeField, BitVec.extractLsb'_toNat, Nat.mod_eq_of_lt htop]

theorem destField_toNat (ir : IrWord) :
    (destField ir).toNat = (ir.toNat &&& 0b111000) >>> 3 := by
  rw [destField, BitVec.extractLsb'_toNat]
  exact (and_mask_shiftRight ir.toNat 3).symm

theorem srcField_toNat (ir : IrWord) : (srcField ir).toNat = ir.toNat &&& 0b111 := by
  rw [srcField, BitVec.extractLsb'_toNat]
  exact (and_mask_shiftRight ir.toNat 0).symm

/-- The opcode map of R52, read off the number that the bits above `dest` and `src` make. -/
theorem decode_eq_of_shiftRight (ir : IrWord) :
    decode ir =
      if ir.toNat >>> 6 = 0 then .mv (destField ir) (srcField ir)
      else if ir.toNat >>> 6 = 1 then .mvi (destField ir) (srcField ir)
      else if ir.toNat >>> 6 = 2 then .add (destField ir) (srcField ir)
      else if ir.toNat >>> 6 = 3 then .sub (destField ir) (srcField ir)
      else .undef (opcodeField ir) (destField ir) (srcField ir) := by
  rw [← opcodeField_toNat]
  rcases decode_cases ir with ⟨ho, hi⟩ | ⟨ho, hi⟩ | ⟨ho, hi⟩ | ⟨ho, hi⟩ | ⟨ho, hi⟩ <;> rw [hi]
  case inr.inr.inr.inr =>
    rw [if_neg (by omega), if_neg (by omega), if_neg (by omega), if_neg (by omega)]
  all_goals simp [ho]

end Sys2Proof

namespace Sys2Proof.Machine

/-- Settles O1: each field by the shift and mask it extracts, the instruction by its opcode, the edge by what a
proceeding edge executes. -/
theorem fieldsOfEveryWord : Obligations.FieldsOfEveryWord :=
  ⟨fun ir => ⟨opcodeField_toNat ir, destField_toNat ir, srcField_toNat ir, decode_eq_of_shiftRight ir⟩,
    fun _ _ he hp => step_edge_exec he hp⟩

end Sys2Proof.Machine
end

section
/-! PROOFS. The family of spec/40_sequencer.md: the fetch of phase 0 (R66), one row for every column of the dispatch
table (R65). -/

namespace Sys2Proof.Machine

/-- At phase 0 the counter advances to 1, or stays after a done edge (R63). -/
theorem nextPhase_of_p0 {s : State} (h0 : s.phase = .p0) :
    nextPhase s = if s.done = true then .p0 else .p1 := by
  rw [nextPhase, h0, Phase.advance]

/-- At phase 0 every instruction has the same meaning, the fetch (R66). -/
theorem exec_of_p0 (i : Instr) {s : State} (h0 : s.phase = .p0) : exec i s = .next (fetchEdge s) := by
  rw [exec_eq_edgeRow, h0, edgeRow_p0]

/-- Settles O18: at phase 0 the row of every instruction is the fetch, whose phase is the advance from phase 0. -/
theorem fetchAtPhaseZero : Obligations.FetchAtPhaseZero := by
  intro i s h0
  refine ⟨fetchEdge s, exec_of_p0 i h0, ?_⟩
  rw [← nextPhase_of_p0 h0]
  rfl

end Sys2Proof.Machine
end

section
/-! PROOFS. The family of spec/41_move.md: phase 1 of `mv` (R70) and of `mvi` (R71), and the edge after a fetch that
runs it. -/

namespace Sys2Proof.Machine

/-- At phase 1 `mv` takes the copy's row (R70). -/
theorem exec_mv_of_p1 (d r : RegIdx) {s : State} (h1 : s.phase = .p1) :
    exec (.mv d r) s = .next (moveEdge d r s) := by
  rw [exec_eq_edgeRow, h1, edgeRow]

/-- At phase 1 `mvi` takes the row of `DIN`, which has no `src` (R53, R71). -/
theorem exec_mvi_of_p1 (d r : RegIdx) {s : State} (h1 : s.phase = .p1) :
    exec (.mvi d r) s = .next (moveDataEdge d s) := by
  rw [exec_eq_edgeRow, h1, edgeRow]

/-- Settles O19: the copy's row is exactly the update of R70. -/
theorem mvCopiesRegister : Obligations.MvCopiesRegister :=
  fun d r s h1 => ⟨moveEdge d r s, exec_mv_of_p1 d r h1, rfl⟩

/-- No guard stops the edge after a fetch: the fetch leaves `done` false and the first-run gate open (R61, R62, R64). -/
@[simp] theorem edgeProceeds_fetchEdge (s : State) : edgeProceeds (fetchEdge s) = true :=
  (edgeProceeds_iff _).2 (.inr ⟨fetchEdge_done s, fetchEdge_awaitingFirstRun s⟩)

/-- A fetch with `done` false leads to phase 1 (R63, R66). -/
theorem fetchEdge_phase_of_not_done {s : State} (h0 : s.phase = .p0) (hd : s.done = false) :
    (fetchEdge s).phase = .p1 := by
  rw [fetchEdge_phase, nextPhase_of_p0 h0, hd, if_neg Bool.false_ne_true]

/-- A clock edge that proceeds at phase 0 and comes first fetches, then the others are received. -/
theorem afterEvents_fetch {rest : List Event} {s : State} (hp : edgeProceeds s = true) (h0 : s.phase = .p0) :
    afterEvents (.clockEdge :: rest) s = afterEvents rest (fetchEdge (receive rest s)) :=
  afterEvents_edge hp (exec_of_p0 (s := receive rest s) _ h0)

/-- Two edges from phase 0 with nothing between: the second runs phase 1 of the word the first fetched (R60, R66). -/
theorem afterEvents_fetch_execute {rest : List Event} {s : State} (hp : edgeProceeds s = true)
    (h0 : s.phase = .p0) (hd : s.done = false) :
    afterEvents (.clockEdge :: .clockEdge :: rest) s =
      afterEvents rest (edgeRow (decodeWord s.din) .p1 (fetchEdge (receive rest s))) := by
  have hphase : (fetchEdge (receive rest s)).phase = .p1 :=
    fetchEdge_phase_of_not_done (s := receive rest s) h0 hd
  rw [afterEvents_fetch hp h0, ← hphase]
  exact afterEvents_edge (edgeProceeds_fetchEdge _) (exec_eq_edgeRow _ _)

/-- With no update between the two edges, `mvi` stores the word it was fetched from (R71). -/
theorem afterEvents_fetched_mvi {d r : RegIdx} {s : State} (h0 : s.phase = .p0) (hd : s.done = false)
    (hp : edgeProceeds s = true) (hi : decodeWord s.din = .mvi d r) :
    ∃ t : State, afterEvents [.clockEdge, .clockEdge] s = .next t ∧
      t.regs = writeReg s.regs d s.din ∧ t.done = true := by
  rw [afterEvents_fetch_execute hp h0 hd, hi, afterEvents_nil]
  exact ⟨_, rfl, rfl, rfl⟩

/-- Settles O20: the row of `mvi` is exactly the update of R71, and a fetch leaves `DIN` for it. -/
theorem mviStoresDataInput : Obligations.MviStoresDataInput :=
  ⟨fun d r s h1 => ⟨moveDataEdge d s, exec_mvi_of_p1 d r h1, rfl⟩,
    fun _ _ _ h0 hd hp hi => afterEvents_fetched_mvi h0 hd hp hi⟩

end Sys2Proof.Machine
end

section
/-! PROOFS. The family of spec/44_host_events.md: the mnemonic encoder (R56, R57, R78) and HoverFocus (R80). -/

namespace Sys2Proof.Machine

/-! ### The mnemonic encoder (R78) -/

/-- The four forms of R56: a text of the mnemonic grammar and the instruction it names. -/
inductive MnemonicForm : List Char → Instr → Prop where
  | mv (i j : RegIdx) : MnemonicForm
      ("mv R".toList ++ [Nat.digitChar i.toNat] ++ " R".toList ++ [Nat.digitChar j.toNat]) (.mv i j)
  | mvi (i : RegIdx) : MnemonicForm ("mvi R".toList ++ [Nat.digitChar i.toNat]) (.mvi i 0)
  | add (i j : RegIdx) : MnemonicForm
      ("add R".toList ++ [Nat.digitChar i.toNat] ++ " R".toList ++ [Nat.digitChar j.toNat]) (.add i j)
  | sub (i j : RegIdx) : MnemonicForm
      ("sub R".toList ++ [Nat.digitChar i.toNat] ++ " R".toList ++ [Nat.digitChar j.toNat]) (.sub i j)

@[simp] theorem regDigit_digitChar (i : RegIdx) : regDigit (Nat.digitChar i.toNat) = some i :=
  regDigit_eq_some.2 rfl

@[simp] theorem regPair_digitChar (form : RegIdx → RegIdx → Instr) (i j : RegIdx) :
    regPair form (Nat.digitChar i.toNat) (Nat.digitChar j.toNat) = some (form i j) := by
  simp [regPair]

/-- Two operands are read only from two register digits. -/
theorem exists_digits_of_regPair {form : RegIdx → RegIdx → Instr} {c d : Char} {ins : Instr}
    (h : regPair form c d = some ins) :
    ∃ i j : RegIdx, c = Nat.digitChar i.toNat ∧ d = Nat.digitChar j.toNat ∧ ins = form i j := by
  unfold regPair at h
  split at h
  next i j hi hj => exact ⟨i, j, regDigit_eq_some.1 hi, regDigit_eq_some.1 hj, (Option.some.inj h).symm⟩
  next => exact absurd h (Option.some_ne_none ins).symm

/-- A text that parses is one of the four forms. -/
theorem mnemonicForm_of_parse {text : List Char} {ins : Instr} (h : parseMnemonic text = some ins) :
    MnemonicForm text ins := by
  unfold parseMnemonic at h
  split at h
  next =>
    obtain ⟨i, j, rfl, rfl, rfl⟩ := exists_digits_of_regPair h
    exact .mv i j
  next =>
    obtain ⟨i, hi, rfl⟩ := Option.map_eq_some_iff.1 h
    obtain rfl := regDigit_eq_some.1 hi
    exact .mvi i
  next =>
    obtain ⟨i, j, rfl, rfl, rfl⟩ := exists_digits_of_regPair h
    exact .add i j
  next =>
    obtain ⟨i, j, rfl, rfl, rfl⟩ := exists_digits_of_regPair h
    exact .sub i j
  next => exact absurd h (Option.some_ne_none ins).symm

/-- The grammar accepts exactly the four forms (R56). -/
theorem parseMnemonic_eq_some {text : List Char} {ins : Instr} :
    parseMnemonic text = some ins ↔ MnemonicForm text ins := by
  refine ⟨mnemonicForm_of_parse, fun h => ?_⟩
  cases h with
  | mv i j => exact regPair_digitChar .mv i j
  | mvi i => exact congrArg (Option.map fun dest => Instr.mvi dest 0) (regDigit_digitChar i)
  | add i j => exact regPair_digitChar .add i j
  | sub i j => exact regPair_digitChar .sub i j

/-- The encoder accepts the texts of the four forms and writes the word of the instruction they name. -/
theorem encodeMnemonic_eq_ok {text : String} {w : Word} :
    encodeMnemonic text = .ok w ↔ ∃ ins, MnemonicForm text.toList ins ∧ encode ins = w := by
  simp only [← parseMnemonic_eq_some]
  unfold encodeMnemonic
  cases parseMnemonic text.toList <;> simp

/-- The encoder has one kind of rejection. -/
theorem encodeMnemonic_of_rejected {text : String} (h : ∀ w, encodeMnemonic text ≠ .ok w) :
    encodeMnemonic text = .error .malformedMnemonic := by
  unfold encodeMnemonic at h ⊢
  cases hp : parseMnemonic text.toList with
  | some ins => exact absurd (by rw [hp]) (h (encode ins))
  | none => rfl

/-- A left shift into a wider word drops no bit where the word has room for it. -/
theorem toNat_setWidth_shiftLeft {n m k : Nat} (x : BitVec n) (h : n + k ≤ m) :
    (x.setWidth m <<< k).toNat = x.toNat <<< k := by
  have hroom : x.toNat <<< k < 2 ^ m := calc
    x.toNat <<< k < 2 ^ (n + k) := by
      rw [Nat.shiftLeft_eq, Nat.pow_add]
      exact Nat.mul_lt_mul_of_pos_right x.isLt (Nat.two_pow_pos k)
    _ ≤ 2 ^ m := Nat.pow_le_pow_right Nat.two_pos h
  rw [BitVec.toNat_shiftLeft, BitVec.toNat_setWidth_of_le (by omega), Nat.mod_eq_of_lt hroom]

/-- The word of R57 as a number: the packing of R50, shifted left by 7, loses no bit. -/
theorem packFields_shift_toNat (o : Opcode) (d r : RegIdx) :
    ((packFields o d r).setWidth 16 <<< 7).toNat =
      (o.toNat <<< 6 ||| d.toNat <<< 3 ||| r.toNat) <<< 7 := by
  rw [toNat_setWidth_shiftLeft _ (by omega), packFields, BitVec.toNat_or, BitVec.toNat_or,
    toNat_setWidth_shiftLeft o (by omega), toNat_setWidth_shiftLeft d (by omega),
    BitVec.toNat_setWidth_of_le (by omega)]

/-- No form names an undefined opcode (R52, R78). -/
theorem MnemonicForm.encode_bit15 {text : List Char} {ins : Instr} (h : MnemonicForm text ins) :
    (encode ins).getLsbD 15 = false := by
  cases h <;> simp [encode, encodeIr, packFields]

/-- The word of a form has `DIN[6:0]` zero and an opcode of at most 3 (R78). -/
theorem MnemonicForm.encode_bounds {text : List Char} {ins : Instr} (h : MnemonicForm text ins) :
    (encode ins).toNat % 2 ^ 7 = 0 ∧ (encode ins).toNat / 2 ^ 13 ≤ 3 := by
  have hlow : (encode ins).toNat >>> 0 % 2 ^ 7 = 0 :=
    congrArg BitVec.toNat (Laws.EncodingLayout.low7_zero ins)
  have htop : (encode ins).toNat < 2 ^ 15 := by
    have hb := h.encode_bit15
    have hlt : (encode ins).toNat < 2 ^ 16 := (encode ins).isLt
    rw [BitVec.getLsbD, Nat.testBit_eq_decide_div_mod_eq, decide_eq_false_iff_not] at hb
    omega
  exact ⟨hlow, by omega⟩

/-- Settles O14: the texts are those of the four forms, by the parser's characterisation; their words are R57's
packing as a number, and each form fixes an opcode below 4. -/
theorem mnemonicEncoderAcceptsFourForms : Obligations.MnemonicEncoderAcceptsFourForms := by
  refine ⟨fun text w => ?_, fun _ h => encodeMnemonic_of_rejected h, fun text w h => ?_⟩
  · rw [encodeMnemonic_eq_ok]
    constructor
    · rintro ⟨ins, hf, rfl⟩
      generalize text.toList = cs at hf ⊢
      cases hf with
      | mv i j => exact ⟨i, j, .inl ⟨rfl, packFields_shift_toNat 0 i j⟩⟩
      | mvi i => exact ⟨i, 0, .inr (.inl ⟨rfl, packFields_shift_toNat 1 i 0⟩)⟩
      | add i j => exact ⟨i, j, .inr (.inr (.inl ⟨rfl, packFields_shift_toNat 2 i j⟩))⟩
      | sub i j => exact ⟨i, j, .inr (.inr (.inr ⟨rfl, packFields_shift_toNat 3 i j⟩))⟩
    · rintro ⟨i, j, ⟨ht, hw⟩ | ⟨ht, hw⟩ | ⟨ht, hw⟩ | ⟨ht, hw⟩⟩ <;> rw [ht]
      · exact ⟨_, .mv i j, BitVec.eq_of_toNat_eq ((packFields_shift_toNat 0 i j).trans hw.symm)⟩
      · exact ⟨_, .mvi i, BitVec.eq_of_toNat_eq ((packFields_shift_toNat 1 i 0).trans hw.symm)⟩
      · exact ⟨_, .add i j, BitVec.eq_of_toNat_eq ((packFields_shift_toNat 2 i j).trans hw.symm)⟩
      · exact ⟨_, .sub i j, BitVec.eq_of_toNat_eq ((packFields_shift_toNat 3 i j).trans hw.symm)⟩
  · obtain ⟨ins, hf, rfl⟩ := encodeMnemonic_eq_ok.1 h
    exact hf.encode_bounds

/-! ### HoverFocus (R80) -/

/-- Settles O11: the step receives the event and, `hoverFocus` being the identity, does nothing else. -/
theorem hoverFocusIsIdentity : Obligations.HoverFocusIsIdentity := by
  intro s id rest he
  refine ⟨receive rest s, ?_, receive_toSnapshot rest s⟩
  rw [step_cons he, applyEvent, hoverFocus_eq]

end Sys2Proof.Machine
end

section
/-! PROOFS. The family of spec/30_encoding.md: decode and encode are inverse to each other (R50, R51, R54), and the
words of the mnemonic encoder as numbers (R57). -/

namespace Sys2Proof

/-! ### Decode after encode -/

/-- The packing of a well-formed instruction decodes to it (R50 to R52). -/
theorem decode_encodeIr {i : Instr} (hi : i.WellFormed) : decode (encodeIr i) = i := by
  cases i with
  | undef o d r =>
    have ho : 4 ≤ o.toNat := by
      have hbit : o.getLsbD 2 = true := hi
      rw [BitVec.getLsbD, Nat.testBit_eq_decide_div_mod_eq, decide_eq_true_iff] at hbit
      omega
    rcases decode_cases (packFields o d r) with ⟨h, -⟩ | ⟨h, -⟩ | ⟨h, -⟩ | ⟨h, -⟩ | ⟨-, h⟩
    case inr.inr.inr.inr => simpa [encodeIr] using h
    all_goals
      rw [opcodeField_pack] at h
      simp [h] at ho
  | _ => simp [encodeIr, decode]

/-- The fetch drops `DIN[6:0]` (R50, R54). -/
theorem fetchField_or_low7 (w : Word) (low7 : BitVec 7) :
    fetchField (w ||| low7.setWidth 16) = fetchField w := by
  apply BitVec.eq_of_getLsbD_eq
  intro k hk
  simp [fetchField]

/-- Settles O2: the fetch drops the low bits and takes back the packing, which decodes to the instruction. -/
theorem decodeInvertsEncode : Obligations.DecodeInvertsEncode := by
  intro i low7 hi
  rw [decodeWord, fetchField_or_low7, fetchField_encode, decode_encodeIr hi]

/-- Settles O5: each word is the encoding of its instruction with some value in `DIN[6:0]`. -/
theorem sampleWordsDecode : Obligations.SampleWordsDecode :=
  ⟨decodeInvertsEncode (.mv 3 5) 0 rfl, decodeInvertsEncode (.mvi 2 0) 0 rfl,
    decodeInvertsEncode (.add 0 1) 0 rfl, decodeInvertsEncode (.sub 2 3) 0 rfl,
    decodeInvertsEncode (.mv 3 5) 0x7F rfl, decodeInvertsEncode (.undef 5 0 0) 0 rfl,
    decodeInvertsEncode (.undef 7 7 7) 0x7F rfl⟩

/-! ### The encoder's words -/

/-- The fields of a word do not overlap, so the packing is the sum of R57's weights. -/
theorem packed_eq_sum {o d r : Nat} (hd : d < 2 ^ 3) (hr : r < 2 ^ 3) :
    (o <<< 6 ||| d <<< 3 ||| r) <<< 7 = o * 0x2000 + d * 0x0400 + r * 0x0080 := by
  have hdr : d <<< 3 ||| r = d <<< 3 + r := (Nat.shiftLeft_add_eq_or_of_lt hr d).symm
  have hlt : d <<< 3 + r < 2 ^ 6 := by rw [Nat.shiftLeft_eq]; omega
  rw [Nat.or_assoc, hdr, ← Nat.shiftLeft_add_eq_or_of_lt hlt]
  simp only [Nat.shiftLeft_eq]
  omega

/-- The word of R57 as a number. -/
theorem encode_pack_toNat (o : Opcode) (d r : RegIdx) :
    ((packFields o d r).setWidth 16 <<< 7).toNat = o.toNat * 0x2000 + d.toNat * 0x0400 + r.toNat * 0x0080 :=
  (Machine.packFields_shift_toNat o d r).trans (packed_eq_sum d.isLt r.isLt)

/-- Settles O4: the base of a form is its opcode's weight. -/
theorem encodedWordValues : Obligations.EncodedWordValues :=
  ⟨fun d r => ⟨encode_pack_toNat 0 d r, encode_pack_toNat 1 d 0, encode_pack_toNat 2 d r, encode_pack_toNat 3 d r⟩,
    by decide⟩

/-- The packing as a number: the weights of R50. -/
theorem packFields_toNat (o : Opcode) (d r : RegIdx) :
    (packFields o d r).toNat = o.toNat * 0x40 + d.toNat * 0x8 + r.toNat := by
  have h := encode_pack_toNat o d r
  rw [Machine.toNat_setWidth_shiftLeft _ (by omega), Nat.shiftLeft_eq] at h
  omega

/-! ### Encode after decode -/

/-- A 9-bit word is the packing of its three fields (R50, R51). -/
theorem packFields_fields (ir : IrWord) :
    packFields (opcodeField ir) (destField ir) (srcField ir) = ir := by
  refine BitVec.eq_of_toNat_eq ((packFields_toNat _ _ _).trans ?_)
  rw [opcodeField_toNat, destField, srcField, BitVec.extractLsb'_toNat, BitVec.extractLsb'_toNat]
  omega

/-- Settles O3: every word falls under an opcode of R52, and its instruction packs the word's own fields again. -/
theorem encodeInvertsDecode : Obligations.EncodeInvertsDecode := by
  intro ir
  have hpack := packFields_fields ir
  rcases decode_cases ir with ⟨ho, hi⟩ | ⟨ho, hi⟩ | ⟨ho, hi⟩ | ⟨ho, hi⟩ | ⟨ho, hi⟩ <;> rw [hi]
  case inr.inr.inr.inr =>
    have hbit : (opcodeField ir).getLsbD 2 = true := by
      rw [← (opcode_undefined_iff ir).1 ho]
      simp [opcodeField]
    exact ⟨hbit, hpack⟩
  all_goals exact ⟨rfl, by rwa [ho] at hpack⟩

end Sys2Proof
end

section
/-! PROOFS. The family of spec/10_state.md: who writes the phase, `done`, the registers, the bus, `clear` and the
environment inputs (R21, R27, R28, R32 to R35). Each rule is read off the rows of the dispatch table (R65) for an edge
that proceeds; every other step keeps what the rows write. -/

namespace Sys2Proof.Machine

/-! ### The rows, field by field -/

/-- The instruction of a word by its opcode, with the opcodes an undefined one is not (R52). -/
theorem opcode_cases (ir : IrWord) :
    (opcodeField ir = 0 ∧ decode ir = .mv (destField ir) (srcField ir)) ∨
    (opcodeField ir = 1 ∧ decode ir = .mvi (destField ir) (srcField ir)) ∨
    (opcodeField ir = 2 ∧ decode ir = .add (destField ir) (srcField ir)) ∨
    (opcodeField ir = 3 ∧ decode ir = .sub (destField ir) (srcField ir)) ∨
    (opcodeField ir ≠ 0#3 ∧ opcodeField ir ≠ 1#3 ∧ opcodeField ir ≠ 2#3 ∧ opcodeField ir ≠ 3#3 ∧
      4 ≤ (opcodeField ir).toNat ∧ decode ir = .undef (opcodeField ir) (destField ir) (srcField ir)) := by
  rcases decode_cases ir with h | h | h | h | ⟨ho, hi⟩
  · exact .inl h
  · exact .inr (.inl h)
  · exact .inr (.inr (.inl h))
  · exact .inr (.inr (.inr (.inl h)))
  · have hne {o : Opcode} (hlt : o.toNat < 4) : opcodeField ir ≠ o := by
      rintro rfl
      omega
    exact .inr (.inr (.inr (.inr
      ⟨hne (by decide), hne (by decide), hne (by decide), hne (by decide), ho, hi⟩)))

@[simp] theorem Phase.toNat_p0 : Phase.p0.toNat = 0 := rfl
@[simp] theorem Phase.toNat_p1 : Phase.p1.toNat = 1 := rfl
@[simp] theorem Phase.toNat_p2 : Phase.p2.toNat = 2 := rfl
@[simp] theorem Phase.toNat_p3 : Phase.p3.toNat = 3 := rfl

/-- The phase-advance rule as a number (R63). -/
theorem nextPhase_toNat (s : State) :
    (nextPhase s).toNat = if s.done = true then 0 else (s.phase.toNat + 1) % 4 := by
  rw [nextPhase, apply_ite Phase.toNat, advance_toNat, Phase.toNat_p0]

theorem nextPhase_of_p1 {s : State} (h : s.phase = .p1) :
    nextPhase s = if s.done = true then .p0 else .p2 := by
  rw [nextPhase, h, Phase.advance]

theorem nextPhase_of_p2 {s : State} (h : s.phase = .p2) :
    nextPhase s = if s.done = true then .p0 else .p3 := by
  rw [nextPhase, h, Phase.advance]

/-- From phase 3 the counter wraps, after a done edge as after any other (R63). -/
theorem nextPhase_of_p3 {s : State} (h : s.phase = .p3) : nextPhase s = .p0 := by
  rw [nextPhase, h, Phase.advance, ite_self]

/-- The phase-advance rule with its overrides (R63, R67, R68, R70, R71). -/
theorem edgeRow_phase_toNat (ir : IrWord) {p : Phase} {s : State} (hp : s.phase = p) :
    (edgeRow (decode ir) p s).phase.toNat =
      if p.toNat = 1 ∧ (opcodeField ir).toNat ≤ 1 then 0
      else if p.toNat ≠ 0 ∧ 4 ≤ (opcodeField ir).toNat then p.toNat
      else if 2 ≤ p.toNat ∧ (opcodeField ir).toNat ≤ 1 then p.toNat
      else if s.done = true then 0
      else (p.toNat + 1) % 4 := by
  rcases opcode_cases ir with ⟨ho, hi⟩ | ⟨ho, hi⟩ | ⟨ho, hi⟩ | ⟨ho, hi⟩ | ⟨-, -, -, -, ho, hi⟩
  case inr.inr.inr.inr =>
    have hgt : ¬ (opcodeField ir).toNat ≤ 1 := by omega
    cases p <;> simp [*, edgeRow, nextPhase_toNat]
  all_goals cases p <;> simp [*, edgeRow, nextPhase_toNat]

/-- The last phase of `mv`, `mvi`, `add` and `sub` sets `done`, every other row leaves it false (R28, R64). -/
theorem edgeRow_done (ir : IrWord) (p : Phase) (s : State) :
    (edgeRow (decode ir) p s).done = true ↔
      (p = .p1 ∧ (opcodeField ir = 0 ∨ opcodeField ir = 1)) ∨
      (p = .p3 ∧ (opcodeField ir = 2 ∨ opcodeField ir = 3)) := by
  rcases opcode_cases ir with ⟨ho, hi⟩ | ⟨ho, hi⟩ | ⟨ho, hi⟩ | ⟨ho, hi⟩ | ⟨h0, h1, h2, h3, -, hi⟩ <;>
    cases p <;> simp [*, edgeRow]

/-- The rows write the `dest` register alone (R21). -/
theorem edgeRow_reg (ir : IrWord) (p : Phase) (s : State) (k : RegIdx) :
    readReg (edgeRow (decode ir) p s).regs k =
      if k = destField ir then
        if p = .p1 ∧ opcodeField ir = 0 then readReg s.regs (srcField ir)
        else if p = .p1 ∧ opcodeField ir = 1 then s.din
        else if p = .p3 ∧ (opcodeField ir = 2 ∨ opcodeField ir = 3) then s.g
        else readReg s.regs k
      else readReg s.regs k := by
  rcases opcode_cases ir with ⟨ho, hi⟩ | ⟨ho, hi⟩ | ⟨ho, hi⟩ | ⟨ho, hi⟩ | ⟨h0, h1, h2, h3, -, hi⟩ <;>
    cases p <;> simp [*, edgeRow, readReg_writeReg, eq_comm (a := k)]

/-- Only the rows that drive the bus write it (R33). -/
theorem edgeRow_bus (ir : IrWord) (p : Phase) (s : State) :
    (edgeRow (decode ir) p s).bus =
      if p = .p1 ∧ opcodeField ir = 0 then readReg s.regs (srcField ir)
      else if p = .p1 ∧ opcodeField ir = 1 then s.din
      else if p = .p1 ∧ (opcodeField ir = 2 ∨ opcodeField ir = 3) then readReg s.regs (destField ir)
      else if p = .p2 ∧ (opcodeField ir = 2 ∨ opcodeField ir = 3) then readReg s.regs (srcField ir)
      else if p = .p3 ∧ (opcodeField ir = 2 ∨ opcodeField ir = 3) then s.g
      else s.bus := by
  rcases opcode_cases ir with ⟨ho, hi⟩ | ⟨ho, hi⟩ | ⟨ho, hi⟩ | ⟨ho, hi⟩ | ⟨h0, h1, h2, h3, -, hi⟩ <;>
    cases p <;> simp [*, edgeRow]

/-- The sum of the unsigned readings, modulo 2^16 (R74, decision D2). -/
theorem alu_add_eq (a b : Word) : alu a b false = BitVec.ofNat 16 (b.toNat + a.toNat) :=
  BitVec.eq_of_toNat_eq (alu_add_toNat a b)

/-- The difference of the unsigned readings, modulo 2^16 (R74, decision D2). -/
theorem alu_sub_eq (a b : Word) : alu a b true = BitVec.ofInt 16 ((a.toNat : Int) - b.toNat) := by
  apply BitVec.eq_of_toNat_eq
  rw [alu, if_pos rfl, BitVec.toNat_sub, BitVec.toNat_ofInt]
  omega

/-- Only phase 2 of `add` and `sub` writes `G` (R23). -/
theorem edgeRow_g (ir : IrWord) (p : Phase) (s : State) :
    (edgeRow (decode ir) p s).g =
      if p = .p2 ∧ opcodeField ir = 2 then
        BitVec.ofNat 16 ((readReg s.regs (srcField ir)).toNat + s.a.toNat)
      else if p = .p2 ∧ opcodeField ir = 3 then
        BitVec.ofInt 16 ((s.a.toNat : Int) - (readReg s.regs (srcField ir)).toNat)
      else s.g := by
  rcases opcode_cases ir with ⟨ho, hi⟩ | ⟨ho, hi⟩ | ⟨ho, hi⟩ | ⟨ho, hi⟩ | ⟨h0, h1, h2, h3, -, hi⟩ <;>
    cases p <;> simp [*, edgeRow, alu_add_eq, alu_sub_eq]

/-- No row writes what the host's events write, but for the display wire `clear` (R26, R34, R35). -/
theorem edgeRow_hostFields (i : Instr) (p : Phase) (s : State) :
    (edgeRow i p s).din = s.din ∧ (edgeRow i p s).run = s.run ∧ (edgeRow i p s).resetN = s.resetN ∧
      (edgeRow i p s).registerRadix = s.registerRadix ∧ (edgeRow i p s).irRadix = s.irRadix := by
  cases i <;> cases p <;> exact ⟨rfl, rfl, rfl, rfl, rfl⟩

/-- Every row resets the display wire `clear` (R64, decision D5). -/
theorem edgeRow_clear (i : Instr) (p : Phase) (s : State) : (edgeRow i p s).wires.clear = false := by
  cases i <;> cases p <;> rfl

/-! ### Whole steps -/

/-- A field that execution alone writes, over a whole step: the row of an edge that proceeds gives its value. -/
theorem step_field {α : Type} {f : State → α} (hf : ∀ {s t : State}, SameExecution s t → f t = f s)
    {s t : State} (h : step s = .next t) :
    f t = if EdgeRuns s then f (edgeRow (decode s.ir) s.phase (receive s.events.tail s)) else f s := by
  by_cases hr : EdgeRuns s
  · rw [if_pos hr, ← eq_edgeRow_of_step h hr]
  · rw [if_neg hr, hf (sameExecution_of_idle h hr)]

/-- Settles O26: the phase of the row of R65 that an edge takes. -/
theorem phaseAdvanceRule : Obligations.PhaseAdvanceRule := by
  intro s t h
  have hfield := step_field (f := fun u => u.phase.toNat) (fun hs => congrArg Phase.toNat hs.phase) h
  exact hfield.trans (by rw [edgeRow_phase_toNat s.ir (receive_phase _ s)]; rfl)

/-- Settles O27: the flag of the row of R65 that an edge takes. -/
theorem doneFlagRule : Obligations.DoneFlagRule := by
  refine ⟨fun s t h => ?_, rfl⟩
  rw [step_field (f := fun u => u.done = true) (fun hs => by rw [hs.done]) h, edgeRow_done]

/-- Settles O28: the registers of the row of R65 that an edge takes. -/
theorem generalRegisterRule : Obligations.GeneralRegisterRule := by
  intro s t k h
  rw [step_field (f := fun u => readReg u.regs k) (fun hs => by rw [hs.regs]) h, edgeRow_reg]
  simp only [← and_assoc, ite_and _ (k = destField s.ir), receive_regs, receive_din, receive_g]

/-- Settles O34: the bus of the row of R65 that an edge takes. -/
theorem busRule : Obligations.BusRule := by
  intro s t h
  rw [step_field (f := fun u => u.bus) (fun hs => hs.bus) h, edgeRow_bus]
  rfl

/-- Settles O25: every meaning is a row, and every row resets the wires. -/
theorem proceedingEdgeResetsClear : Obligations.ProceedingEdgeResetsClear :=
  fun i s => ⟨_, exec_eq_edgeRow i s, edgeRow_clear i s.phase s⟩

/-- An update writes none of the environment inputs (R34, R35, R77). -/
theorem dataInputUpdate_inputs (src : DataSource) (s : State) :
    (dataInputUpdate src s).run = s.run ∧ (dataInputUpdate src s).resetN = s.resetN ∧
      (dataInputUpdate src s).registerRadix = s.registerRadix ∧
      (dataInputUpdate src s).irRadix = s.irRadix := by
  rcases dataInputUpdate_cases src s with ⟨w, -, heq⟩ | ⟨k, -, heq⟩ <;> rw [heq] <;>
    exact ⟨rfl, rfl, rfl, rfl⟩

/-- Settles O35: the rows keep the inputs, and of the other events only a tick writes them. -/
theorem environmentInputsRule : Obligations.EnvironmentInputsRule := by
  intro s t h hno
  by_cases hr : EdgeRuns s
  · rw [eq_edgeRow_of_step h hr]
    exact (edgeRow_hostFields _ _ _).2
  · rcases step_idle_cases h hr with
      ⟨-, rfl⟩ | ⟨env, rest, he, rfl⟩ | ⟨src, rest, -, rfl⟩ | ⟨id, rest, -, rfl⟩ | ⟨rest, -, -, rfl⟩
    case inr.inl => exact absurd (by rw [he]; rfl) (hno env)
    case inr.inr.inl => exact dataInputUpdate_inputs src (receive rest s)
    all_goals exact ⟨rfl, rfl, rfl, rfl⟩

end Sys2Proof.Machine
end

section
/-! PROOFS. The family of spec/10_state.md: who writes and who reads `G` and `DIN`, and that nothing reads the display
state (R23, R26, R30, R33 to R35). Two states in a relation that the host's events keep stay in it over a step, if the
row of an edge that proceeds keeps it too. -/

namespace Sys2Proof.Machine

/-! ### Two runs side by side -/

/-- `R` relates states that receive the same events, stop at the same guards and stay related when an event other than a
clock edge is applied to both. -/
structure KeptByHost (R : State → State → Prop) : Prop where
  events_eq : ∀ {s s'}, R s s' → s'.events = s.events
  proceeds_eq : ∀ {s s'}, R s s' → edgeProceeds s' = edgeProceeds s
  received : ∀ {s s'} rest, R s s' → R (receive rest s) (receive rest s')
  ticked : ∀ {s s'} env, R s s' → R (environmentTick env s) (environmentTick env s')
  updated : ∀ {s s'} src, R s s' → R (dataInputUpdate src s) (dataInputUpdate src s')

/-- Such a relation is kept by every step that is no edge that proceeds. -/
theorem KeptByHost.step_idle {R : State → State → Prop} (hR : KeptByHost R) {s s' t : State}
    (hs : R s s') (h : step s = .next t) (hn : ¬ EdgeRuns s) : ∃ t', step s' = .next t' ∧ R t t' := by
  have hev := hR.events_eq hs
  rcases step_idle_cases h hn with
    ⟨he, rfl⟩ | ⟨env, rest, he, rfl⟩ | ⟨src, rest, he, rfl⟩ | ⟨id, rest, he, rfl⟩ | ⟨rest, he, hp, rfl⟩
  · exact ⟨s', step_nil (hev.trans he), hs⟩
  · exact ⟨_, step_cons (hev.trans he), hR.ticked env (hR.received rest hs)⟩
  · exact ⟨_, step_cons (hev.trans he), hR.updated src (hR.received rest hs)⟩
  · exact ⟨_, step_cons (hev.trans he), hR.received rest hs⟩
  · exact ⟨_, step_edge_stopped (hev.trans he) ((hR.proceeds_eq hs).trans hp), hR.received rest hs⟩

/-- Such a relation is kept by every step, if the rows that an edge that proceeds takes keep it. -/
theorem KeptByHost.step_related {R : State → State → Prop} (hR : KeptByHost R) {s s' t : State}
    (hs : R s s') (h : step s = .next t)
    (hrow : EdgeRuns s → ∀ rest, R (edgeRow (decode s.ir) s.phase (receive rest s))
      (edgeRow (decode s'.ir) s'.phase (receive rest s'))) :
    ∃ t', step s' = .next t' ∧ R t t' := by
  by_cases hr : EdgeRuns s
  · have hr' : EdgeRuns s' := by rwa [EdgeRuns, hR.events_eq hs, hR.proceeds_eq hs]
    refine ⟨_, step_edgeRuns hr', ?_⟩
    rw [eq_edgeRow_of_step h hr, hR.events_eq hs]
    exact hrow hr _
  · exact hR.step_idle hs h hr

/-! ### The ALU result register (R23) -/

/-- The states differ in `G` alone. -/
def SameButG (s s' : State) : Prop := ∃ x : Word, s' = { s with g := x }

theorem keptByHost_sameButG : KeptByHost SameButG where
  events_eq := by rintro s _ ⟨x, rfl⟩; rfl
  proceeds_eq := by rintro s _ ⟨x, rfl⟩; rfl
  received := by rintro s _ rest ⟨x, rfl⟩; exact ⟨x, rfl⟩
  ticked := by rintro s _ env ⟨x, rfl⟩; exact ⟨x, rfl⟩
  updated := by
    rintro s _ src ⟨x, rfl⟩
    unfold dataInputUpdate
    cases encodeSource src <;> exact ⟨x, rfl⟩

/-- Outside phase 3 of `add` and `sub` no row reads `G` (R72, R73). -/
theorem edgeRow_sameButG {ir : IrWord} {p : Phase} {s s' : State} (hs : SameButG s s')
    (hn : ¬ (p = .p3 ∧ (opcodeField ir = 2 ∨ opcodeField ir = 3))) :
    SameButG (edgeRow (decode ir) p s) (edgeRow (decode ir) p s') := by
  obtain ⟨x, rfl⟩ := hs
  rcases decode_cases ir with ⟨ho, hi⟩ | ⟨ho, hi⟩ | ⟨ho, hi⟩ | ⟨ho, hi⟩ | ⟨ho, hi⟩ <;> rw [hi] <;>
    cases p
  case inr.inr.inl.p3 => exact absurd ⟨rfl, .inl ho⟩ hn
  case inr.inr.inr.inl.p3 => exact absurd ⟨rfl, .inr ho⟩ hn
  all_goals exact ⟨_, rfl⟩

/-- `G` over a whole step: only phase 2 of `add` and `sub` writes it. -/
theorem step_g {s t : State} (h : step s = .next t) :
    t.g =
      if s.events.head? = some .clockEdge ∧ edgeProceeds s = true ∧ s.phase = .p2 ∧
        opcodeField s.ir = 2 then
        BitVec.ofNat 16 ((readReg s.regs (srcField s.ir)).toNat + s.a.toNat)
      else if s.events.head? = some .clockEdge ∧ edgeProceeds s = true ∧ s.phase = .p2 ∧
        opcodeField s.ir = 3 then
        BitVec.ofInt 16 ((s.a.toNat : Int) - (readReg s.regs (srcField s.ir)).toNat)
      else s.g := by
  rw [step_field (f := fun u => u.g) (fun hs => hs.g) h, edgeRow_g]
  by_cases hr : EdgeRuns s
  · simp [hr.1, hr.2]
  · rw [if_neg hr, if_neg fun ⟨he, hp, _⟩ => hr ⟨he, hp⟩, if_neg fun ⟨he, hp, _⟩ => hr ⟨he, hp⟩]

/-- Settles O30: the writers of `G` by the rows of R65, its readers by two runs that differ in `G`. -/
theorem aluResultRule : Obligations.AluResultRule := by
  refine ⟨rfl, fun _ _ h => step_g h, fun s t x h hn => ?_⟩
  obtain ⟨t', ht', y, rfl⟩ := keptByHost_sameButG.step_related ⟨x, rfl⟩ h fun hr rest =>
    edgeRow_sameButG ⟨x, rfl⟩ fun hp => hn ⟨hr.1, hr.2, hp⟩
  exact ⟨y, ht'⟩

/-! ### The data-input register (R26) -/

/-- The states differ in `DIN` alone. -/
def SameButDin (s s' : State) : Prop := ∃ x : Word, s' = { s with din := x }

theorem keptByHost_sameButDin : KeptByHost SameButDin where
  events_eq := by rintro s _ ⟨x, rfl⟩; rfl
  proceeds_eq := by rintro s _ ⟨x, rfl⟩; rfl
  received := by rintro s _ rest ⟨x, rfl⟩; exact ⟨x, rfl⟩
  ticked := by rintro s _ env ⟨x, rfl⟩; exact ⟨x, rfl⟩
  updated := by
    rintro s _ src ⟨x, rfl⟩
    unfold dataInputUpdate
    cases encodeSource src <;> exact ⟨_, rfl⟩

/-- Phase 1 of `mvi` aside, a row reads of `DIN` at most the bits a fetch takes (R66, R71). -/
theorem edgeRow_sameButDin {ir : IrWord} {p : Phase} {s : State} {x : Word}
    (hn : ¬ (p = .p1 ∧ opcodeField ir = 1)) (hf : p = .p0 → fetchField x = fetchField s.din) :
    SameButDin (edgeRow (decode ir) p s) (edgeRow (decode ir) p { s with din := x }) := by
  cases p with
  | p0 =>
    have hfetch : fetchEdge { s with din := x } = { fetchEdge s with din := x } := by
      simp only [fetchEdge, hf rfl]
      rfl
    rw [edgeRow_p0, hfetch]
    exact ⟨x, rfl⟩
  | p1 =>
    rcases decode_cases ir with ⟨ho, hi⟩ | ⟨ho, hi⟩ | ⟨ho, hi⟩ | ⟨ho, hi⟩ | ⟨ho, hi⟩ <;> rw [hi]
    case inr.inl => exact absurd ⟨rfl, ho⟩ hn
    all_goals exact ⟨x, rfl⟩
  | p2 | p3 => cases decode ir <;> exact ⟨x, rfl⟩

/-- The one writer of `DIN`: a step keeps it or receives an update that encodes to the word it then holds. -/
theorem step_din_cases {s t : State} (h : step s = .next t) :
    t.din = s.din ∨
      ∃ src rest, s.events = .dataInputUpdate src :: rest ∧ encodeSource src = .ok t.din := by
  by_cases hr : EdgeRuns s
  · rw [eq_edgeRow_of_step h hr]
    exact .inl (edgeRow_hostFields _ _ _).1
  · rcases step_idle_cases h hr with
      ⟨-, rfl⟩ | ⟨env, rest, -, rfl⟩ | ⟨src, rest, he, rfl⟩ | ⟨id, rest, -, rfl⟩ | ⟨rest, -, -, rfl⟩
    case inr.inr.inl =>
      rcases dataInputUpdate_cases src (receive rest s) with ⟨w, hw, heq⟩ | ⟨k, -, heq⟩ <;> rw [heq]
      · exact .inr ⟨src, rest, he, hw⟩
      · exact .inl rfl
    all_goals exact .inl rfl

/-- An update that the codec accepts writes its word. -/
theorem dataInputUpdate_ok {src : DataSource} {w : Word} (hw : encodeSource src = .ok w) (s : State) :
    dataInputUpdate src s = { s with din := w } := by
  rw [dataInputUpdate, hw]

/-- An update that the codec rejects returns the rejection. -/
theorem dataInputUpdate_error {src : DataSource} {k : Rejection} (hk : encodeSource src = .error k)
    (s : State) : dataInputUpdate src s = { s with reply := some k } := by
  rw [dataInputUpdate, hk]

/-- Settles O32: the writer of `DIN` by the event received, its readers by two runs that differ in `DIN`. -/
theorem dataInputRule : Obligations.DataInputRule := by
  refine ⟨rfl, fun s t h => ⟨fun src rest w he hw => ?_, fun hno => ?_⟩, fun s t x h hn hf => ?_⟩
  · rw [step_cons he, applyEvent, dataInputUpdate_ok hw] at h
    rw [← Host.Outcome.next.inj h]
    rfl
  · rcases step_din_cases h with hd | ⟨src, rest, he, hw⟩
    · exact hd
    · exact absurd hw (hno src rest t.din he)
  · obtain ⟨t', ht', y, rfl⟩ := keptByHost_sameButDin.step_related (s' := { s with din := x }) ⟨x, rfl⟩ h fun hr rest =>
      edgeRow_sameButDin (s := receive rest s) (fun hp => hn ⟨hr.1, hr.2, hp⟩)
        fun h0 => hf ⟨hr.1, hr.2, h0⟩
    exact ⟨y, ht'⟩

/-- Settles O17: a mnemonic's word has bit 15 clear, so the update that set the bit carried a literal. -/
theorem undefinedOpcodeOnlyFromLiteral : Obligations.UndefinedOpcodeOnlyFromLiteral := by
  intro s t h hclear hset
  rcases step_din_cases h with hd | ⟨src, rest, he, hw⟩
  · rw [hd, hclear] at hset
    exact absurd hset Bool.false_ne_true
  · cases src with
    | mnemonic text =>
      obtain ⟨ins, hform, henc⟩ := encodeMnemonic_eq_ok.1 hw
      rw [← henc, hform.encode_bit15] at hset
      exact absurd hset Bool.false_ne_true
    | literal text b => exact ⟨text, b, rest, he⟩

/-! ### The display state (R30, R33 to R35) -/

/-- The states differ only in the wires, the bus, `reset_n` and the radices. -/
def SameButDisplay (s s' : State) : Prop :=
  ∃ (wires : Wires) (bus : Word) (resetN : Bool) (regRadix irRadix : Radix),
    s' = { s with
      wires := wires, bus := bus, resetN := resetN, registerRadix := regRadix, irRadix := irRadix }

theorem keptByHost_sameButDisplay : KeptByHost SameButDisplay where
  events_eq := by rintro s _ ⟨_, _, _, _, _, rfl⟩; rfl
  proceeds_eq := by rintro s _ ⟨_, _, _, _, _, rfl⟩; rfl
  received := by rintro s _ rest ⟨_, _, _, _, _, rfl⟩; exact ⟨_, _, _, _, _, rfl⟩
  ticked := by rintro s _ env ⟨_, _, _, _, _, rfl⟩; exact ⟨_, _, _, _, _, rfl⟩
  updated := by
    rintro s _ src ⟨_, _, _, _, _, rfl⟩
    unfold dataInputUpdate
    cases encodeSource src <;> exact ⟨_, _, _, _, _, rfl⟩

/-- No row reads the display state. -/
theorem edgeRow_sameButDisplay (i : Instr) (p : Phase) {s s' : State} (hs : SameButDisplay s s') :
    SameButDisplay (edgeRow i p s) (edgeRow i p s') := by
  obtain ⟨_, _, _, _, _, rfl⟩ := hs
  cases i <;> cases p <;> exact ⟨_, _, _, _, _, rfl⟩

/-- Settles O36: two runs that differ in the display state go on differing there alone. -/
theorem displayStateIsNeverRead : Obligations.DisplayStateIsNeverRead := by
  intro s t wires bus resetN regRadix irRadix h
  have hs : SameButDisplay s { s with
      wires := wires, bus := bus, resetN := resetN, registerRadix := regRadix, irRadix := irRadix } :=
    ⟨_, _, _, _, _, rfl⟩
  obtain ⟨t', ht', w, b, n, rr, ri, rfl⟩ := keptByHost_sameButDisplay.step_related hs h fun _ rest =>
    edgeRow_sameButDisplay _ _ (keptByHost_sameButDisplay.received rest hs)
  exact ⟨w, b, n, rr, ri, ht'⟩

end Sys2Proof.Machine
end

section
/-! PROOFS. The family of spec/10_state.md: the power-on state (R37, R94) and what every step keeps, the clauses of R39
and the wires as a record of the datapath (R30). -/

namespace Sys2Proof.Machine

/-! ### Power-on -/

/-- No register holds anything but zero at power-on (R37). -/
@[simp] theorem readReg_startup (k : RegIdx) : readReg Snapshot.startup.regs k = 0 := by
  simp [readReg, Snapshot.startup]

/-- Settles O37: the registers and the two wire vectors entry by entry, every other field by its value in the
definition. -/
theorem powerOnState : Obligations.PowerOnState :=
  ⟨readReg_startup, rfl, rfl, rfl, rfl, rfl, rfl, rfl, rfl, rfl, rfl, rfl, rfl,
    off_regLoad_get, off_regOut_get, rfl, rfl, rfl, rfl, rfl, rfl, rfl, rfl, rfl, rfl, rfl, rfl⟩

/-- Settles O38: at power-on `done` is false, the phase is 0 and no wire is set. -/
theorem powerOnStateIsConsistent : Obligations.PowerOnStateIsConsistent := by
  have hdone : State.reset.done = false := rfl
  have hphase : State.reset.phase = .p0 := rfl
  have hwires : State.reset.wires = Wires.off := rfl
  refine ⟨⟨?_, ?_, fun _ => rfl, rfl⟩, ?_⟩
  · simp [hphase]
  · simp [hphase]
  · constructor <;> simp [hwires, hdone]

/-! ### Steps that execute nothing -/

/-- A state with the same execution differs at most in `run`, `reset_n`, the radices, `clear` and `DIN`. -/
theorem SameExecution.toSnapshot_eq {s t : State} (h : SameExecution s t) :
    t.toSnapshot = { s.toSnapshot with
      run := t.run
      resetN := t.resetN
      registerRadix := t.registerRadix
      irRadix := t.irRadix
      din := t.din
      wires := { s.wires with clear := t.wires.clear } } := by
  obtain ⟨hregs, ha, hg, hir, hphase, hdone, hawait, hwires, hbus⟩ := h
  dsimp only
  rw [← hregs, ← ha, ← hg, ← hir, ← hphase, ← hdone, ← hawait, ← hwires, ← hbus]

/-- The startup state "except in `run`, `reset_n`, the radices, `clear` and `DIN`" (R39(c)) stays it. -/
theorem SameExecution.atStartup {s t : State} (h : SameExecution s t) (hs : s.AtStartup) : t.AtStartup := by
  have hs' : s.toSnapshot = _ := hs
  refine h.toSnapshot_eq.trans ?_
  rw [hs']

/-- The clauses of R39 speak of nothing that differs. -/
theorem SameExecution.consistent {s t : State} (h : SameExecution s t) (hs : s.Consistent) : t.Consistent where
  done_at_fetch := by rw [h.done, h.phase]; exact hs.done_at_fetch
  late_phase_opcode := by rw [h.phase, h.ir]; exact hs.late_phase_opcode
  awaiting_startup := by rw [h.awaitingFirstRun]; exact fun ha => h.atStartup (hs.awaiting_startup ha)
  accumOut_off := by rw [h.wires]; exact hs.accumOut_off

/-- The clauses of R30 speak of nothing that differs. -/
theorem SameExecution.wiresRecord {s t : State} (h : SameExecution s t) (hs : s.WiresRecord) :
    t.WiresRecord := by
  rw [h.toSnapshot_eq]
  exact ⟨hs.regOut_bus, hs.regLoad_bus, hs.accumLoad_bus, hs.aluResultOut_bus, hs.aluResultLoad_wire,
    hs.aluResultWire_zero, hs.subtract_loads, hs.regOut_one, hs.regLoad_one, hs.done_regLoad⟩

/-! ### The clauses of R39 -/

/-- A row that sets `done` leads to phase 0 (R39(a)). -/
theorem edgeRow_phase_of_done {ir : IrWord} {p : Phase} {s : State} (hp : s.phase = p)
    (hd : (edgeRow (decode ir) p s).done = true) : (edgeRow (decode ir) p s).phase = .p0 := by
  rcases (edgeRow_done ir p s).1 hd with ⟨rfl, ho | ho⟩ | ⟨rfl, ho | ho⟩
  · simp [decode, ho, edgeRow]
  · simp [decode, ho, edgeRow]
  · simp [decode, ho, edgeRow, nextPhase_of_p3 hp]
  · simp [decode, ho, edgeRow, nextPhase_of_p3 hp]

/-- A row leads to phase 2 or 3 only under `add` or `sub`: the fetch leads to phase 0 or 1, the moves to phase 0, and
opcodes 4 to 7 hold the phase (R39(b), conflict C3). -/
theorem edgeRow_late_phase {ir : IrWord} {p : Phase} {s : State} (hp : s.phase = p)
    (hs : p = .p2 ∨ p = .p3 → opcodeField ir = 2 ∨ opcodeField ir = 3)
    (hlate : (edgeRow (decode ir) p s).phase = .p2 ∨ (edgeRow (decode ir) p s).phase = .p3) :
    p ≠ .p0 ∧ (opcodeField ir = 2 ∨ opcodeField ir = 3) := by
  cases p with
  | p0 =>
    rw [edgeRow_p0, fetchEdge_phase, nextPhase_of_p0 hp] at hlate
    split at hlate <;> simp at hlate
  | p1 =>
    refine ⟨Phase.noConfusion, ?_⟩
    rcases opcode_cases ir with ⟨ho, hi⟩ | ⟨ho, hi⟩ | ⟨ho, hi⟩ | ⟨ho, hi⟩ | ⟨-, -, -, -, ho, hi⟩
    case inr.inr.inl => exact .inl ho
    case inr.inr.inr.inl => exact .inr ho
    all_goals simp [hi, edgeRow, hp] at hlate
  | p2 => exact ⟨Phase.noConfusion, hs (.inl rfl)⟩
  | p3 => exact ⟨Phase.noConfusion, hs (.inr rfl)⟩

/-- Every row keeps the clauses of R39, and opens the gate that clause (c) speaks of. -/
theorem edgeRow_consistent {s : State} (hs : s.Consistent) :
    (edgeRow (decode s.ir) s.phase s).Consistent where
  done_at_fetch := edgeRow_phase_of_done rfl
  late_phase_opcode hlate := by
    obtain ⟨h0, ho⟩ := edgeRow_late_phase rfl hs.late_phase_opcode hlate
    rwa [edgeRow_ir, if_neg h0]
  awaiting_startup ha := absurd ((edgeRow_awaitingFirstRun _ _ s).symm.trans ha) Bool.false_ne_true
  accumOut_off := edgeRow_accumOut _ _ s

/-- Settles O39: an edge that proceeds takes a row, every other step keeps what the clauses speak of. -/
theorem stepKeepsConsistent : Obligations.StepKeepsConsistent := by
  intro s t hs h
  by_cases hr : EdgeRuns s
  · rw [eq_edgeRow_of_step h hr]
    exact edgeRow_consistent (s := receive s.events.tail s) hs
  · exact (sameExecution_of_idle h hr).consistent hs

/-! ### The wires as a record (R30) -/

/-! A wire that a row asserts names the register, `A` or `G` it drove or loaded, and `onlyWire` sets one bit. -/

theorem fetchEdge_wiresRecord (s : State) : (fetchEdge s).WiresRecord := by
  constructor <;> simp

theorem holdEdge_wiresRecord (s : State) : (holdEdge s).WiresRecord := by
  constructor <;> simp

theorem moveEdge_wiresRecord (d r : RegIdx) (s : State) : (moveEdge d r s).WiresRecord := by
  constructor <;> simp [readReg_writeReg]

theorem moveDataEdge_wiresRecord (d : RegIdx) (s : State) : (moveDataEdge d s).WiresRecord := by
  constructor <;> simp

theorem accumulateEdge_wiresRecord (d : RegIdx) (s : State) : (accumulateEdge d s).WiresRecord := by
  constructor <;> simp

theorem aluEdge_wiresRecord (m : Bool) (r : RegIdx) (s : State) : (aluEdge m r s).WiresRecord := by
  constructor <;> simp

theorem writeBackEdge_wiresRecord (d : RegIdx) (s : State) : (writeBackEdge d s).WiresRecord := by
  constructor <;> simp

/-- What holds after each of the seven rows of R65 holds after every cell of the table. -/
theorem edgeRow_cases {P : State → Prop} {s : State} (fetch : P (fetchEdge s)) (hold : P (holdEdge s))
    (move : ∀ d r, P (moveEdge d r s)) (moveData : ∀ d, P (moveDataEdge d s))
    (accumulate : ∀ d, P (accumulateEdge d s)) (aluResult : ∀ m r, P (aluEdge m r s))
    (writeBack : ∀ d, P (writeBackEdge d s)) (i : Instr) (p : Phase) : P (edgeRow i p s) := by
  cases p with
  | p0 => rwa [edgeRow_p0]
  | p1 =>
    cases i with
    | mv d r => exact move d r
    | mvi d _ => exact moveData d
    | add d _ | sub d _ => exact accumulate d
    | undef => exact hold
  | p2 =>
    cases i with
    | add _ r => exact aluResult false r
    | sub _ r => exact aluResult true r
    | mv | mvi | undef => exact hold
  | p3 =>
    cases i with
    | add d _ | sub d _ => exact writeBack d
    | mv | mvi | undef => exact hold

/-- Whatever the wires showed before, after a row they record what it did. -/
theorem edgeRow_wiresRecord (i : Instr) (p : Phase) (s : State) : (edgeRow i p s).WiresRecord :=
  edgeRow_cases (P := fun t => t.WiresRecord) (fetchEdge_wiresRecord s) (holdEdge_wiresRecord s)
    (fun d r => moveEdge_wiresRecord d r s)
    (fun d => moveDataEdge_wiresRecord d s) (fun d => accumulateEdge_wiresRecord d s)
    (fun m r => aluEdge_wiresRecord m r s) (fun d => writeBackEdge_wiresRecord d s) i p

/-- Settles O40: an edge that proceeds writes the record anew, every other step keeps what it speaks of. -/
theorem stepKeepsWiresRecord : Obligations.StepKeepsWiresRecord := by
  intro s t hs h
  by_cases hr : EdgeRuns s
  · rw [eq_edgeRow_of_step h hr]
    exact edgeRow_wiresRecord _ _ _
  · exact (sameExecution_of_idle h hr).wiresRecord hs

end Sys2Proof.Machine
end

section
/-! PROOFS. The families of spec/00_scope.md, spec/40_sequencer.md and spec/44_host_events.md: one step, by the event it
receives (R4, R60, R76, R77, R82). -/

namespace Sys2Proof.Machine

/-- Every event has a next state: an edge that proceeds by its row, the others by their definition (R82, R86). -/
theorem exists_applyEvent (e : Event) (s : State) : ∃ t, applyEvent e s = .next t := by
  cases e with
  | clockEdge =>
    rw [applyEvent]
    cases hp : edgeProceeds s with
    | true => exact ⟨_, (clockEdge_of_proceeds hp).trans (exec_eq_edgeRow _ _)⟩
    | false => exact ⟨s, clockEdge_of_stopped hp⟩
  | environmentTick | dataInputUpdate | hoverFocus => exact ⟨_, rfl⟩

/-- Settles O6: a step without an event. -/
theorem noEventNoChange : Obligations.NoEventNoChange :=
  fun _ he => step_nil he

/-- The step that receives an accepted update. -/
theorem step_update_ok {s : State} {src : DataSource} {rest : List Event} {w : Word}
    (he : s.events = .dataInputUpdate src :: rest) (hw : encodeSource src = .ok w) :
    step s = .next { receive rest s with din := w } := by
  rw [step_cons he, applyEvent, dataInputUpdate_ok hw]

/-- The step that receives a rejected update. -/
theorem step_update_error {s : State} {src : DataSource} {rest : List Event} {k : Rejection}
    (he : s.events = .dataInputUpdate src :: rest) (hk : encodeSource src = .error k) :
    step s = .next { receive rest s with reply := some k } := by
  rw [step_cons he, applyEvent, dataInputUpdate_error hk]

/-- Settles O7: an event, if there is one, has a next state; a rejection writes `reply` alone. -/
theorem stepNeverStops : Obligations.StepNeverStops := by
  refine ⟨fun s => ?_, fun s t rest src k he hk h => ?_⟩
  · cases he : s.events with
    | nil => exact ⟨s, step_nil he⟩
    | cons e rest => rw [step_cons he]; exact exists_applyEvent e _
  · rw [step_update_error he hk] at h
    rw [← Host.Outcome.next.inj h]
    exact ⟨rfl, rfl⟩

/-- Settles O8: an edge that no guard stops. -/
theorem stepRunsHeldInstruction : Obligations.StepRunsHeldInstruction := by
  rintro s rest i he hp rfl -
  exact step_edge_exec he hp

/-- Settles O9: a closed guard needs `run` false and one of the two flags. -/
theorem guardedEdgeChangesNothing : Obligations.GuardedEdgeChangesNothing := by
  refine fun s rest he => ⟨edgeProceeds_iff s, fun hrun hflag => step_edge_stopped he ?_⟩
  rw [← Bool.not_eq_true, edgeProceeds_iff]
  rintro (hrun' | ⟨hdone, hawait⟩)
  · simp [hrun] at hrun'
  · simp [hdone, hawait] at hflag

/-- Settles O10: the tick's update, written out. -/
theorem environmentTickSamplesInputs : Obligations.EnvironmentTickSamplesInputs :=
  fun _ _ _ he => step_cons he

/-- Settles O12: the two routes are the codec's, the two outcomes those of an update. -/
theorem dataInputUpdateWritesOnlyDin : Obligations.DataInputUpdateWritesOnlyDin :=
  ⟨fun _ => rfl, fun _ _ => rfl,
    fun _ _ _ he => ⟨fun _ hw => step_update_ok he hw, fun _ hk => step_update_error he hk⟩⟩

end Sys2Proof.Machine
end

section
/-! PROOFS. The families of spec/42_alu.md and spec/40_sequencer.md: the execute phases of `add` and `sub` (R72, R73) and
the held phases of `mv` and `mvi` (R68). -/

namespace Sys2Proof.Machine

/-- The instruction of the ALU family with the given mode (R72 to R74). -/
def aluInstr : Bool → RegIdx → RegIdx → Instr
  | false => .add
  | true => .sub

/-- At phase 1 `add` and `sub` load `A` (R72, R73). -/
theorem edgeRow_aluInstr_p1 (m : Bool) (d r : RegIdx) : edgeRow (aluInstr m d r) .p1 = accumulateEdge d := by
  cases m <;> rfl

/-- At phase 2 `add` and `sub` load `G` (R72, R73). -/
theorem edgeRow_aluInstr_p2 (m : Bool) (d r : RegIdx) : edgeRow (aluInstr m d r) .p2 = aluEdge m r := by
  cases m <;> rfl

/-- At phase 3 `add` and `sub` write back (R72, R73). -/
theorem edgeRow_aluInstr_p3 (m : Bool) (d r : RegIdx) : edgeRow (aluInstr m d r) .p3 = writeBackEdge d := by
  cases m <;> rfl

/-- Phase 1 of `add` and `sub` with every field it leaves alone. -/
theorem exec_aluInstr_p1 (m : Bool) (d r : RegIdx) {s : State} (h : s.phase = .p1) :
    ∃ t : State, exec (aluInstr m d r) s = .next t ∧
      t = { s with
        awaitingFirstRun := false
        wires := { Wires.off with regOut := onlyWire d, accumLoad := true, clear := t.wires.clear }
        a := readReg s.regs d
        bus := readReg s.regs d
        done := false
        phase := if s.done = true then .p0 else .p2 } := by
  refine ⟨accumulateEdge d s, ?_, ?_⟩
  · rw [exec_eq_edgeRow, h, edgeRow_aluInstr_p1]
  · rw [← nextPhase_of_p1 h]; rfl

/-- Phase 2 of `add` and `sub` with every field it leaves alone. -/
theorem exec_aluInstr_p2 (m : Bool) (d r : RegIdx) {s : State} (h : s.phase = .p2) :
    ∃ t : State, exec (aluInstr m d r) s = .next t ∧
      t = { s with
        awaitingFirstRun := false
        wires := { Wires.off with
          regOut := onlyWire r
          aluResultLoad := true
          subtractMode := m
          aluResultWire := alu s.a (readReg s.regs r) m
          clear := t.wires.clear }
        g := alu s.a (readReg s.regs r) m
        bus := readReg s.regs r
        done := false
        phase := if s.done = true then .p0 else .p3 } := by
  refine ⟨aluEdge m r s, ?_, ?_⟩
  · rw [exec_eq_edgeRow, h, edgeRow_aluInstr_p2]
  · rw [← nextPhase_of_p2 h]; rfl

/-- Phase 3 of `add` and `sub` with every field it leaves alone. -/
theorem exec_aluInstr_p3 (m : Bool) (d r : RegIdx) {s : State} (h : s.phase = .p3) :
    ∃ t : State, exec (aluInstr m d r) s = .next t ∧
      t = { s with
        awaitingFirstRun := false
        wires := { Wires.off with
          aluResultOut := true, regLoad := onlyWire d, clear := t.wires.clear }
        regs := writeReg s.regs d s.g
        bus := s.g
        done := true
        phase := .p0 } := by
  refine ⟨writeBackEdge d s, ?_, ?_⟩
  · rw [exec_eq_edgeRow, h, edgeRow_aluInstr_p3]
  · rw [← nextPhase_of_p3 h]; rfl

/-- Settles O21: the phases of the ALU family with `subtract_mode` off, the sum as a number. -/
theorem addPhases : Obligations.AddPhases := by
  refine fun d r s => ⟨exec_aluInstr_p1 false d r, fun h => ?_, exec_aluInstr_p3 false d r⟩
  rw [← alu_add_eq]
  exact exec_aluInstr_p2 false d r h

/-- Settles O22: the phases of the ALU family with `subtract_mode` on, the difference as a number. -/
theorem subPhases : Obligations.SubPhases := by
  refine fun d r s => ⟨exec_aluInstr_p1 true d r, fun h => ?_, exec_aluInstr_p3 true d r⟩
  rw [← alu_sub_eq]
  exact exec_aluInstr_p2 true d r h

/-- Settles O24: the cells of `mv` and `mvi` at phases 2 and 3 are the held phase. -/
theorem movesHoldAtLatePhases : Obligations.MovesHoldAtLatePhases := by
  intro d r s hp
  have hrow : ∀ i, i = .mv d r ∨ i = .mvi d r → exec i s = .next (holdEdge s) := by
    rintro _ (rfl | rfl) <;> rw [exec_eq_edgeRow] <;> rcases hp with h | h <;> rw [h] <;> rfl
  exact ⟨⟨_, hrow _ (.inl rfl), rfl⟩, ⟨_, hrow _ (.inr rfl), rfl⟩⟩

end Sys2Proof.Machine
end

section
/-! PROOFS. The family of spec/30_encoding.md section 4 and spec/44_host_events.md: the literal encoder (R58, R79). -/

namespace Sys2Proof.Machine

/-! ### The value of a digit string (R58) -/

/-- A character that is no digit of the radix leaves the text without a value. -/
theorem digitsValue_eq_none {b : Radix} {cs : List Char} (h : ∃ c ∈ cs, c ∉ radixAlphabet b) (acc : Nat) :
    digitsValue b acc cs = none := by
  induction cs generalizing acc with
  | nil => simp at h
  | cons c rest ih =>
    rw [digitsValue]
    split
    next d hd =>
      have hc : c ∈ radixAlphabet b := by
        by_contra hno
        rw [digitValue_eq_none.2 hno] at hd
        exact Option.some_ne_none d hd.symm
      obtain ⟨c', hmem, hno⟩ := h
      rcases List.mem_cons.1 hmem with rfl | hrest
      · exact absurd hc hno
      · exact ih ⟨c', hrest, hno⟩ _
    next => rfl

/-- Digits are read most significant first, each worth the radix times the ones after it. -/
theorem digitsValue_eq_foldl {b : Radix} {digits : List Nat} (hlt : ∀ d ∈ digits, d < b.base)
    {cs : List Char} (hcs : cs.map some = digits.map (fun d => digitAlphabet[d]?)) (acc : Nat) :
    digitsValue b acc cs = some (digits.foldl (fun v d => v * b.base + d) acc) := by
  induction digits generalizing cs acc with
  | nil =>
    obtain rfl : cs = [] := by simpa using hcs
    rfl
  | cons d digits ih =>
    cases cs with
    | nil => simp at hcs
    | cons c cs =>
      rw [List.map_cons, List.map_cons, List.cons.injEq] at hcs
      obtain ⟨hc, hcs⟩ := hcs
      have hd : digitValue b c = some d := digitValue_eq_some.2 ⟨hlt d List.mem_cons_self, hc.symm⟩
      rw [digitsValue, hd, List.foldl_cons]
      exact ih (fun d' h' => hlt d' (List.mem_cons_of_mem d h')) hcs _

/-- Reading the digits most significant first gives their positional value. -/
theorem foldl_digits_eq_ofDigits (b : Nat) (digits : List Nat) :
    digits.foldl (fun v d => v * b + d) 0 = Nat.ofDigits b digits.reverse := by
  simp [Nat.ofDigits_eq_foldr, Nat.mul_comm, Nat.add_comm]

/-! ### The encoder (R79) -/

/-- A text that is not empty and has a value is stored by that value. -/
theorem encodeLiteral_of_value {text : String} {b : Radix} {v : Nat} (hne : text.toList ≠ [])
    (hv : digitsValue b 0 text.toList = some v) (overflow : LiteralOverflow) :
    encodeLiteral overflow text b = storeLiteral overflow v := by
  unfold encodeLiteral
  split
  next h => exact absurd h hne
  next c rest h => rw [← h, hv]

/-- An empty text, or one without a value, is rejected. -/
theorem encodeLiteral_of_no_value {text : String} {b : Radix}
    (h : text.toList = [] ∨ digitsValue b 0 text.toList = none) (overflow : LiteralOverflow) :
    encodeLiteral overflow text b = .error .invalidNumericLiteral := by
  unfold encodeLiteral
  split
  next => rfl
  next c rest hcons =>
    rcases h with hnil | hnone
    · simp [hnil] at hcons
    · rw [← hcons, hnone]

/-- What is stored of a value (R79), with the parameter as a condition. -/
theorem storeLiteral_eq (overflow : LiteralOverflow) (v : Nat) :
    storeLiteral overflow v =
      if v < 2 ^ 16 then .ok (BitVec.ofNat 16 v)
      else if overflow = .wrap then .ok (BitVec.ofNat 16 (v % 2 ^ 16))
      else .error .invalidNumericLiteral := by
  cases overflow <;> rfl

/-- A text of digits of the radix is stored by its positional value. -/
theorem encodeLiteral_of_digits {b : Radix} {digits : List Nat} (hne : digits ≠ [])
    (hlt : ∀ d ∈ digits, d < b.base) {text : String}
    (ht : text.toList.map some = digits.map (fun d => digitAlphabet[d]?)) (overflow : LiteralOverflow) :
    encodeLiteral overflow text b = storeLiteral overflow (Nat.ofDigits b.base digits.reverse) := by
  have htext : text.toList ≠ [] := by
    intro hnil
    rw [hnil, List.map_nil, eq_comm, List.map_eq_nil_iff] at ht
    exact hne ht
  refine encodeLiteral_of_value htext ?_ overflow
  rw [digitsValue_eq_foldl hlt ht, foldl_digits_eq_ofDigits]

/-- Settles O15: a text is rejected for having no value, and otherwise stored by the value of its digits. -/
theorem literalEncoderStoresDigitValue : Obligations.LiteralEncoderStoresDigitValue :=
  ⟨fun overflow _ _ h => encodeLiteral_of_no_value (h.imp_right fun hc => digitsValue_eq_none hc 0) overflow,
    fun overflow _ _ _ hne hlt ht =>
      (encodeLiteral_of_digits hne hlt ht overflow).trans (storeLiteral_eq overflow _)⟩

/-! ### Every word has a literal (R79) -/

/-- The text of a list of digits (R58). -/
def digitText (digits : List Nat) : String := String.ofList (digits.map fun d => digitAlphabet.getD d '0')

/-- The text of digits below the radix spells them in its alphabet. -/
theorem digitText_spells {b : Radix} {digits : List Nat} (hlt : ∀ d ∈ digits, d < b.base) :
    (digitText digits).toList.map some = digits.map (fun d => digitAlphabet[d]?) := by
  have hbase : b.base ≤ digitAlphabet.length := by cases b <;> decide
  rw [digitText, String.toList_ofList, List.map_map]
  refine List.map_congr_left fun d hd => ?_
  have hd' : d < digitAlphabet.length := (hlt d hd).trans_le hbase
  simp [hd']

/-- The positional digits of a number, most significant first, after one leading zero (so that the zero has a digit). -/
def wordDigits (b : Radix) (n : Nat) : List Nat := 0 :: (Nat.digits b.base n).reverse

theorem wordDigits_lt (b : Radix) (n : Nat) : ∀ d ∈ wordDigits b n, d < b.base := by
  have hbase : 1 < b.base := by cases b <;> decide
  intro d hd
  rcases List.mem_cons.1 hd with rfl | hd
  · omega
  · exact Nat.digits_lt_base hbase (List.mem_reverse.1 hd)

theorem ofDigits_wordDigits (b : Radix) (n : Nat) : Nat.ofDigits b.base (wordDigits b n).reverse = n := by
  simp [wordDigits, Nat.ofDigits_append, Nat.ofDigits_digits]

/-- Settles O16: the text of the word's digits in the radix. -/
theorem literalsReachEveryWord : Obligations.LiteralsReachEveryWord := by
  intro overflow b w
  have hlt := wordDigits_lt b w.toNat
  refine ⟨digitText (wordDigits b w.toNat), ?_⟩
  rw [encodeLiteral_of_digits (digits := wordDigits b w.toNat) (List.cons_ne_nil _ _) hlt (digitText_spells hlt),
    ofDigits_wordDigits, storeLiteral_eq, if_pos w.isLt, BitVec.ofNat_toNat, BitVec.setWidth_eq]

end Sys2Proof.Machine
end

section
/-! PROOFS. The families of spec/44_host_events.md (R81), spec/40_sequencer.md (R62, R67) and spec/60_exceptions.md (R93):
what lists of events lead to. A list is sent part by part, and a property of the Machine State that every event of a list
keeps is kept by the list; the quiet lists, the stall, the hold and the waits are such properties. -/

namespace Sys2Proof.Machine

/-! ### Lists of events (R4) -/

/-- No row reads or writes the queue. -/
theorem edgeRow_withEvents (i : Instr) (p : Phase) (s : State) (q : List Event) :
    edgeRow i p { s with events := q } = { edgeRow i p s with events := q } := by
  cases i <;> cases p <;> rfl

/-- No event reads or writes the queue of the events after it. -/
theorem applyEvent_withEvents {e : Event} {s t : State} (h : applyEvent e s = .next t) (q : List Event) :
    applyEvent e { s with events := q } = .next { t with events := q } := by
  rcases applyEvent_cases h with ⟨env, rfl, rfl⟩ | ⟨rfl, h⟩ | ⟨src, rfl, rfl⟩ | ⟨id, rfl, rfl⟩
  · rfl
  · rcases clockEdge_cases h with ⟨hp, h⟩ | ⟨hp, rfl⟩
    · rw [exec_eq_edgeRow] at h
      rw [← Host.Outcome.next.inj h, ← edgeRow_withEvents]
      exact (clockEdge_of_proceeds (s := { s with events := q }) hp).trans (exec_eq_edgeRow _ _)
    · exact clockEdge_of_stopped (s := { t with events := q }) hp
  · rcases dataInputUpdate_cases src s with ⟨w, hw, heq⟩ | ⟨k, hk, heq⟩ <;> rw [heq, applyEvent]
    · rw [dataInputUpdate_ok hw]
    · rw [dataInputUpdate_error hk]
  · rfl

/-- What was still queued does not matter to a list that is sent now. -/
theorem afterEvents_withEvents (evs : List Event) (s : State) (q : List Event) :
    afterEvents evs { s with events := q } = afterEvents evs s := by
  cases evs <;> rfl

/-- A list of events can be sent in two parts. -/
theorem afterEvents_append {xs : List Event} {s t : State} (h : afterEvents xs s = .next t) (ys : List Event) :
    afterEvents (xs ++ ys) s = afterEvents ys t := by
  induction xs generalizing s with
  | nil =>
    rw [← Host.Outcome.next.inj h]
    exact (afterEvents_withEvents ys s []).symm
  | cons e xs ih =>
    obtain ⟨u, hu⟩ := exists_applyEvent e (receive xs s)
    rw [afterEvents_cons hu] at h
    have hu' : applyEvent e (receive (xs ++ ys) s) = .next { u with events := xs ++ ys } :=
      applyEvent_withEvents hu (xs ++ ys)
    rw [List.cons_append, afterEvents_cons hu', afterEvents_withEvents, ih h]

/-- A property of the Machine State that every event of a kind keeps is kept by every list of such events. -/
theorem afterEvents_keeps {P : Snapshot → Prop} {ok : Event → Prop}
    (hev : ∀ {e : Event} {s t : State}, ok e → P s.toSnapshot → applyEvent e s = .next t → P t.toSnapshot)
    {evs : List Event} {s : State} (hok : ∀ e ∈ evs, ok e) (hs : P s.toSnapshot) :
    ∃ t : State, afterEvents evs s = .next t ∧ P t.toSnapshot := by
  induction evs generalizing s with
  | nil => exact ⟨_, afterEvents_nil s, hs⟩
  | cons e rest ih =>
    obtain ⟨u, hu⟩ := exists_applyEvent e (receive rest s)
    have hPu : P u.toSnapshot := hev (s := receive rest s) (hok e List.mem_cons_self) hs hu
    rw [afterEvents_cons hu]
    exact ih (fun e' he' => hok e' (List.mem_cons_of_mem e he')) hPu

/-- An edge that comes first and proceeds takes its row, then the others are received. -/
theorem afterEvents_edgeRow {rest : List Event} {s : State} (hp : edgeProceeds s = true) :
    afterEvents (.clockEdge :: rest) s =
      afterEvents rest (edgeRow (decode s.ir) s.phase (receive rest s)) :=
  afterEvents_edge hp (exec_eq_edgeRow _ _)

/-- A tick that comes first is sampled, then the others are received. -/
theorem afterEvents_tick (env : Environment) (rest : List Event) (s : State) :
    afterEvents (.environmentTick env :: rest) s = afterEvents rest (environmentTick env (receive rest s)) :=
  afterEvents_cons rfl

/-- An accepted update that comes first writes `DIN`, then the others are received. -/
theorem afterEvents_update {src : DataSource} {w : Word} (hw : encodeSource src = .ok w) (rest : List Event)
    (s : State) :
    afterEvents (.dataInputUpdate src :: rest) s = afterEvents rest { receive rest s with din := w } :=
  afterEvents_cons (by rw [applyEvent, dataInputUpdate_ok hw])

/-! ### Quiet lists (R81) -/

/-- `u` is `s` except in `run`, `reset_n`, the radices, `clear` and `DIN`. -/
def Snapshot.SameExecution (s u : Snapshot) : Prop :=
  u = { s with
    run := u.run
    resetN := u.resetN
    registerRadix := u.registerRadix
    irRadix := u.irRadix
    din := u.din
    wires := { s.wires with clear := u.wires.clear } }

/-- Two states have the same execution exactly when their Machine States agree but in those fields. -/
theorem sameExecution_iff {s t : State} : SameExecution s t ↔ s.toSnapshot.SameExecution t.toSnapshot := by
  refine ⟨SameExecution.toSnapshot_eq, fun h => ?_⟩
  unfold Snapshot.SameExecution at h
  constructor
  case wires => exact (congrArg Snapshot.wires h :)
  case regs => exact (congrArg Snapshot.regs h :)
  case a => exact (congrArg Snapshot.a h :)
  case g => exact (congrArg Snapshot.g h :)
  case ir => exact (congrArg Snapshot.ir h :)
  case phase => exact (congrArg Snapshot.phase h :)
  case done => exact (congrArg Snapshot.done h :)
  case awaitingFirstRun => exact (congrArg Snapshot.awaitingFirstRun h :)
  case bus => exact (congrArg Snapshot.bus h :)

theorem SameExecution.trans {s t u : State} (h : SameExecution s t) (h' : SameExecution t u) :
    SameExecution s u where
  regs := h'.regs.trans h.regs
  a := h'.a.trans h.a
  g := h'.g.trans h.g
  ir := h'.ir.trans h.ir
  phase := h'.phase.trans h.phase
  done := h'.done.trans h.done
  awaitingFirstRun := h'.awaitingFirstRun.trans h.awaitingFirstRun
  wires := by rw [h'.wires, h.wires]
  bus := h'.bus.trans h.bus

/-- Receiving an event is no execution. -/
theorem SameExecution.received {s t : State} (h : SameExecution s t) (rest : List Event) :
    SameExecution s (receive rest t) :=
  (sameExecution_iff (t := receive rest t)).2 ((sameExecution_iff (t := t)).1 h)

/-- An event that is no clock edge executes nothing. -/
theorem sameExecution_of_quiet {e : Event} {s t : State} (hq : Event.quiet e = true)
    (h : applyEvent e s = .next t) : SameExecution s t := by
  rcases applyEvent_cases h with ⟨env, rfl, rfl⟩ | ⟨rfl, -⟩ | ⟨src, rfl, rfl⟩ | ⟨id, rfl, rfl⟩
  case inr.inl => exact absurd hq Bool.false_ne_true
  case inr.inr.inl =>
    rcases dataInputUpdate_cases src s with ⟨w, -, heq⟩ | ⟨k, -, heq⟩ <;> rw [heq] <;> constructor <;> rfl
  all_goals constructor <;> rfl

/-- A list of quiet events executes nothing. -/
theorem afterEvents_quiet {q : List Event} (hq : Quiet q) (s : State) :
    ∃ t : State, afterEvents q s = .next t ∧ SameExecution s t := by
  obtain ⟨t, ht, hst⟩ := afterEvents_keeps (P := s.toSnapshot.SameExecution) (s := s)
    (fun hquiet hs h => sameExecution_iff.1
      ((sameExecution_iff.2 hs).trans (sameExecution_of_quiet hquiet h))) hq rfl
  exact ⟨t, ht, sameExecution_iff.2 hst⟩

/-- Settles O13: a quiet list executes nothing, whatever it writes of the host's own fields. -/
theorem hostEventsLeaveExecution : Obligations.HostEventsLeaveExecution := by
  intro evs s hq
  obtain ⟨t, ht, hst⟩ := afterEvents_quiet hq s
  exact ⟨t, ht, hst.toSnapshot_eq⟩

/-- The event writes no word to `DIN`. -/
def Event.KeepsDin (e : Event) : Prop :=
  ∀ src w, e = .dataInputUpdate src → encodeSource src ≠ .ok w

/-- A quiet event that is no successful update leaves `DIN`. -/
theorem din_of_keepsDin {e : Event} {s t : State} (hq : Event.quiet e = true) (hno : Event.KeepsDin e)
    (h : applyEvent e s = .next t) : t.din = s.din := by
  rcases applyEvent_cases h with ⟨env, rfl, rfl⟩ | ⟨rfl, -⟩ | ⟨src, rfl, rfl⟩ | ⟨id, rfl, rfl⟩
  case inr.inl => exact absurd hq Bool.false_ne_true
  case inr.inr.inl =>
    rcases dataInputUpdate_cases src s with ⟨w, hw, -⟩ | ⟨k, -, heq⟩
    · exact absurd hw (hno src w rfl)
    · rw [heq]
  all_goals rfl

/-- Without a successful update a quiet list leaves `DIN` too. -/
theorem afterEvents_quiet_keeps_din {q : List Event} (hq : Quiet q) (hno : ∀ e ∈ q, Event.KeepsDin e)
    (s : State) : ∃ t : State, afterEvents q s = .next t ∧ SameExecution s t ∧ t.din = s.din := by
  obtain ⟨t, ht, hst, hdin⟩ := afterEvents_keeps
    (P := fun u => s.toSnapshot.SameExecution u ∧ u.din = s.din) (s := s)
    (ok := fun e => Event.quiet e = true ∧ Event.KeepsDin e)
    (fun hok hs h => ⟨sameExecution_iff.1 ((sameExecution_iff.2 hs.1).trans (sameExecution_of_quiet hok.1 h)),
      (din_of_keepsDin hok.1 hok.2 h).trans hs.2⟩)
    (fun e he => ⟨hq e he, hno e he⟩) ⟨rfl, rfl⟩
  exact ⟨t, ht, sameExecution_iff.2 hst, hdin⟩

end Sys2Proof.Machine
end

section
/-! PROOFS. The waits of spec/60_exceptions.md R93: the stall of opcodes 4 to 7 (R67), the completion hold (R62) and the
first-run gate (R61), each a property that lists of events keep. -/

namespace Sys2Proof.Machine

/-! ### The stall (R67) -/

/-- Past the fetch, opcodes 4 to 7 hold (R67). -/
theorem exec_undef_of_execute (o : Opcode) (d r : RegIdx) {s : State} (h : s.phase ≠ .p0) :
    exec (.undef o d r) s = .next (holdEdge s) := by
  rw [exec_eq_edgeRow]
  cases hp : s.phase with
  | p0 => exact absurd hp h
  | p1 | p2 | p3 => rfl

/-- A stalled core runs the held phase, whatever its fields name. -/
theorem exec_of_stalled {s : State} (hs : s.Stalled) : exec (decode s.ir) s = .next (holdEdge s) := by
  have ho : 4 ≤ (opcodeField s.ir).toNat := (opcode_undefined_iff s.ir).2 hs.opcode_undefined
  rcases opcode_cases s.ir with ⟨h, -⟩ | ⟨h, -⟩ | ⟨h, -⟩ | ⟨h, -⟩ | ⟨-, -, -, -, -, hi⟩
  case inr.inr.inr.inr => rw [hi, exec_undef_of_execute _ _ _ hs.phase_execute]
  all_goals simp [h] at ho

/-- `u` is stalled where `s` was, with the registers, `A`, `G` and the bus of `s`. -/
def Snapshot.StillStalled (s u : Snapshot) : Prop :=
  u.Stalled ∧ u.phase = s.phase ∧ u.ir = s.ir ∧ u.regs = s.regs ∧ u.a = s.a ∧ u.g = s.g ∧ u.bus = s.bus

/-- No event ends a stall: an edge holds the phase, every other event executes nothing. -/
theorem stillStalled_of_applyEvent {s₀ : Snapshot} {e : Event} {s t : State}
    (hs : s₀.StillStalled s.toSnapshot) (h : applyEvent e s = .next t) : s₀.StillStalled t.toSnapshot := by
  obtain ⟨hstall, hphase, hir, hregs, ha, hg, hbus⟩ := hs
  have hquiet (hq : Event.quiet e = true) : s₀.StillStalled t.toSnapshot := by
    have hst := sameExecution_of_quiet hq h
    exact ⟨⟨hst.phase ▸ hstall.phase_execute, hst.ir ▸ hstall.opcode_undefined, hst.done.trans hstall.not_done⟩,
      hst.phase.trans hphase, hst.ir.trans hir, hst.regs.trans hregs, hst.a.trans ha, hst.g.trans hg,
      hst.bus.trans hbus⟩
  cases e with
  | clockEdge =>
    rcases clockEdge_cases h with ⟨-, h⟩ | ⟨-, rfl⟩
    · rw [exec_of_stalled hstall] at h
      rw [← Host.Outcome.next.inj h]
      exact ⟨⟨hstall.phase_execute, hstall.opcode_undefined, rfl⟩, hphase, hir, hregs, ha, hg, hbus⟩
    · exact ⟨hstall, hphase, hir, hregs, ha, hg, hbus⟩
  | environmentTick | dataInputUpdate | hoverFocus => exact hquiet rfl

/-- A stall outlasts every list of events (R67, decision D7). -/
theorem afterEvents_stalled (evs : List Event) {s : State} (hs : s.Stalled) :
    ∃ t : State, afterEvents evs s = .next t ∧ s.StillStalled t.toSnapshot :=
  afterEvents_keeps (ok := fun _ => True) (fun _ => stillStalled_of_applyEvent) (fun _ _ => trivial)
    ⟨hs, rfl, rfl, rfl, rfl, rfl, rfl⟩

/-- With the gate open no guard stops the edges of a stall (R60). -/
theorem edgeProceeds_of_stalled {s : State} (hs : s.Stalled) (ha : s.awaitingFirstRun = false) :
    edgeProceeds s = true :=
  (edgeProceeds_iff s).2 (.inr ⟨hs.not_done, ha⟩)

/-- In a core with the gate open and `done` false, the held phase changes the wires alone. -/
theorem holdEdge_of_idle {s : State} (ha : s.awaitingFirstRun = false) (hd : s.done = false) :
    holdEdge s = { s with wires := Wires.off } := by
  simp [holdEdge, beginEdge, ha, hd]

/-- The fetch of a word with bit 15 set enters the stall at phase 1 (R67). -/
theorem stalled_fetchEdge {s : State} (h0 : s.phase = .p0) (hd : s.done = false)
    (hbit : s.din.getLsbD 15 = true) : (fetchEdge s).Stalled where
  phase_execute := by simp [nextPhase_of_p0 h0, hd]
  opcode_undefined := by simpa [fetchField] using hbit
  not_done := rfl

/-- Settles O23: the held phase for one edge, its permanence for lists of events, the fetch for the way in. -/
theorem undefinedOpcodeStalls : Obligations.UndefinedOpcodeStalls := by
  refine ⟨fun o d r s h => ⟨_, exec_undef_of_execute o d r h, rfl⟩, fun s rest hs ha he => ?_,
    fun o d r s h ha hd hw => ?_, fun evs s hs => afterEvents_stalled evs hs, fun s h0 hd hp hbit => ?_⟩
  · refine ⟨holdEdge (receive rest s), ?_, ?_⟩
    · rw [step_edge_exec he (edgeProceeds_of_stalled hs ha)]
      exact exec_of_stalled (s := receive rest s) hs
    · rw [holdEdge_of_idle (s := receive rest s) ha hs.not_done]
      rfl
  · rw [exec_undef_of_execute o d r h, holdEdge_of_idle ha hd, ← hw]
  · refine ⟨_, afterEvents_fetch hp h0, ?_, fetchEdge_phase_of_not_done (s := receive [] s) h0 hd⟩
    exact stalled_fetchEdge (s := receive [] s) h0 hd hbit

/-! ### The hold and the first-run gate (R61, R62) -/

/-- A closed guard stops the edge (R60). -/
theorem edgeProceeds_of_waiting {s : State} (hrun : s.run = false)
    (hflag : s.awaitingFirstRun = true ∨ s.done = true) : edgeProceeds s = false := by
  rw [← Bool.not_eq_true, edgeProceeds_iff]
  rcases hflag with h | h <;> simp [hrun, h]

/-- With `run` false a core that waits keeps its whole Machine State over any number of edges. -/
theorem afterEvents_waiting (n : Nat) {s : State} (hrun : s.run = false)
    (hflag : s.awaitingFirstRun = true ∨ s.done = true) :
    ∃ t : State, afterEvents (List.replicate n .clockEdge) s = .next t ∧ t.toSnapshot = s.toSnapshot := by
  refine afterEvents_keeps (P := (· = s.toSnapshot)) (ok := (· = .clockEdge)) ?_
    (fun _ he => List.eq_of_mem_replicate he) rfl
  rintro _ u t rfl hu h
  have hstop : edgeProceeds u = false :=
    edgeProceeds_of_waiting (by rw [hu, hrun]) (by rwa [hu])
  rw [applyEvent, clockEdge_of_stopped hstop] at h
  rw [← Host.Outcome.next.inj h, hu]

/-- Settles O46: the guards for the first two waits, the permanence of the stall for the third. -/
theorem waitingConditions : Obligations.WaitingConditions := by
  refine ⟨fun n s hrun hflag => afterEvents_waiting n hrun hflag, fun s env hrun => ?_,
    fun evs s hs => afterEvents_stalled evs hs⟩
  refine ⟨_, afterEvents_tick env [] s, (edgeProceeds_iff _).2 (.inl hrun), ?_⟩
  rw [← hrun]
  rfl

/-- The event is no tick that sets `run`. -/
def Event.KeepsRunFalse (e : Event) : Prop := ∀ env, e = .environmentTick env → env.run = false

/-- No such event ends a completion hold: an edge is stopped, every other event executes nothing (R62, N15). -/
theorem hold_of_applyEvent {s₀ s t : State} {e : Event} (hd : s₀.done = true) (hs : SameExecution s₀ s)
    (hrun : s.run = false) (hok : Event.KeepsRunFalse e) (h : applyEvent e s = .next t) :
    SameExecution s₀ t ∧ t.run = false := by
  rcases applyEvent_cases h with ⟨env, rfl, rfl⟩ | ⟨rfl, hedge⟩ | ⟨src, rfl, rfl⟩ | ⟨id, rfl, rfl⟩
  · exact ⟨hs.trans (sameExecution_of_quiet rfl h), hok env rfl⟩
  · rw [clockEdge_of_stopped (edgeProceeds_of_waiting hrun (.inr (hs.done.trans hd)))] at hedge
    rw [← Host.Outcome.next.inj hedge]
    exact ⟨hs, hrun⟩
  · exact ⟨hs.trans (sameExecution_of_quiet rfl h), (dataInputUpdate_inputs src s).1.trans hrun⟩
  · exact ⟨hs, hrun⟩

/-- A completion hold is kept by every list of such events. -/
theorem afterEvents_hold {evs : List Event} {s : State} (hrun : s.run = false) (hd : s.done = true)
    (hok : ∀ e ∈ evs, Event.KeepsRunFalse e) :
    ∃ t : State, afterEvents evs s = .next t ∧ SameExecution s t ∧ t.run = false := by
  obtain ⟨t, ht, hst, htrun⟩ := afterEvents_keeps
    (P := fun u => s.toSnapshot.SameExecution u ∧ u.run = false)
    (fun hok hs h => (hold_of_applyEvent hd (sameExecution_iff.2 hs.1) hs.2 hok h).imp_left sameExecution_iff.1)
    hok ⟨rfl, hrun⟩
  exact ⟨t, ht, sameExecution_iff.2 hst, htrun⟩

/-- Settles O47: a list that keeps the hold executes nothing and leaves `run` false. -/
theorem holdOutlastsOtherEvents : Obligations.HoldOutlastsOtherEvents := by
  intro evs s hrun hd hno
  obtain ⟨t, ht, hst, htrun⟩ := afterEvents_hold hrun hd fun e he env henv => hno env (henv ▸ he)
  refine ⟨t, ht, hst.toSnapshot_eq.trans ?_⟩
  rw [htrun, ← hrun]

end Sys2Proof.Machine
end

section
/-! PROOFS. The families of spec/41_move.md and spec/42_alu.md: whole instructions, from the fetch to the edge that sets
`done` (R70 to R73, R98, R102), with quiet events between the edges (R81). -/

namespace Sys2Proof.Machine

/-! ### In the middle of an instruction -/

/-- The core is past the fetch of `ir`, about to execute phase `p`. -/
structure Executing (ir : IrWord) (p : Phase) (s : State) : Prop where
  phase : s.phase = p
  ir : s.ir = ir
  done : s.done = false
  awaitingFirstRun : s.awaitingFirstRun = false

/-- No guard stops an edge in the middle of an instruction, whatever `run` is (R61, R62). -/
theorem Executing.proceeds {ir : IrWord} {p : Phase} {s : State} (hs : Executing ir p s) :
    edgeProceeds s = true :=
  (edgeProceeds_iff s).2 (.inr ⟨hs.done, hs.awaitingFirstRun⟩)

/-- Quiet events leave the core where it is in its instruction. -/
theorem Executing.of_sameExecution {ir : IrWord} {p : Phase} {s t : State} (hs : Executing ir p s)
    (h : SameExecution s t) : Executing ir p t where
  phase := h.phase.trans hs.phase
  ir := h.ir.trans hs.ir
  done := h.done.trans hs.done
  awaitingFirstRun := h.awaitingFirstRun.trans hs.awaitingFirstRun

/-- A fetch with `done` false starts the fetched instruction (R66). -/
theorem executing_fetchEdge {s : State} (h0 : s.phase = .p0) (hd : s.done = false) :
    Executing (fetchField s.din) .p1 (fetchEdge s) :=
  ⟨fetchEdge_phase_of_not_done h0 hd, rfl, rfl, rfl⟩

/-- An edge in the middle of an instruction takes the instruction's row. -/
theorem Executing.afterEvents_edge {ir : IrWord} {p : Phase} {s : State} (hs : Executing ir p s)
    (rest : List Event) :
    afterEvents (.clockEdge :: rest) s = afterEvents rest (edgeRow (decode ir) p (receive rest s)) := by
  rw [afterEvents_edgeRow hs.proceeds, hs.ir, hs.phase]

/-- Quiet events and then an edge: the row is taken in a state of the same execution. -/
theorem Executing.afterEvents_quiet_edge {ir : IrWord} {p : Phase} {s : State} (hs : Executing ir p s)
    {q : List Event} (hq : Quiet q) (rest : List Event) :
    ∃ u : State, SameExecution s u ∧ Executing ir p u ∧
      afterEvents (q ++ .clockEdge :: rest) s = afterEvents rest (edgeRow (decode ir) p u) := by
  obtain ⟨v, hv, hsame⟩ := afterEvents_quiet hq s
  refine ⟨receive rest v, hsame.received rest, hs.of_sameExecution (hsame.received rest), ?_⟩
  rw [afterEvents_append hv, (hs.of_sameExecution hsame).afterEvents_edge]

/-- The fetch, quiet events and the edge of phase 1: its row is taken in a state of the fetch's execution. -/
theorem afterEvents_fetch_quiet_edge {s : State} (h0 : s.phase = .p0) (hd : s.done = false)
    (hp : edgeProceeds s = true) {q : List Event} (hq : Quiet q) (rest : List Event) :
    ∃ u : State, SameExecution (fetchEdge s) u ∧ Executing (fetchField s.din) .p1 u ∧
      afterEvents (.clockEdge :: (q ++ .clockEdge :: rest)) s =
        afterEvents rest (edgeRow (decodeWord s.din) .p1 u) := by
  have hexec : Executing (fetchField s.din) .p1 (fetchEdge (receive (q ++ .clockEdge :: rest) s)) :=
    executing_fetchEdge (s := receive _ s) h0 hd
  obtain ⟨u, hu, hu', heq⟩ := hexec.afterEvents_quiet_edge hq rest
  exact ⟨u, ⟨hu.regs, hu.a, hu.g, hu.ir, hu.phase, hu.done, hu.awaitingFirstRun, hu.wires, hu.bus⟩, hu',
    (afterEvents_fetch hp h0).trans heq⟩

/-! ### mv and mvi -/

/-- `mv` from its fetch to its last edge, with quiet events between. -/
theorem mv_completes {d r : RegIdx} {s : State} {q : List Event} (hq : Quiet q) (h0 : s.phase = .p0)
    (hd : s.done = false) (hp : edgeProceeds s = true) (hi : decodeWord s.din = .mv d r) :
    ∃ t : State, afterEvents (.clockEdge :: (q ++ [.clockEdge])) s = .next t ∧
      t.regs = writeReg s.regs d (readReg s.regs r) ∧ t.bus = readReg s.regs r ∧
      t.a = s.a ∧ t.g = s.g ∧ t.done = true ∧ t.phase = .p0 ∧ t.ir = fetchField s.din := by
  obtain ⟨u, hu, -, heq⟩ := afterEvents_fetch_quiet_edge h0 hd hp hq []
  rw [hi] at heq
  have hregs : u.regs = s.regs := hu.regs
  refine ⟨_, heq, ?_, ?_, hu.a, hu.g, rfl, rfl, hu.ir⟩ <;> rw [← hregs] <;> rfl

/-- Settles O41: `mv` from its fetch to its last edge. -/
theorem mvCompletesInTwoEdges : Obligations.MvCompletesInTwoEdges := by
  intro d r s q hq h0 hd hp hi
  obtain ⟨t, ht, hregs, hbus, ha, hg, hdone, hphase, -⟩ := mv_completes hq h0 hd hp hi
  exact ⟨t, ht, hregs, hbus, ha, hg, hdone, hphase⟩

/-- Of quiet events the last successful update decides `DIN` (R98). -/
theorem afterEvents_last_update {q q' : List Event} {src : DataSource} {x : Word} (hq : Quiet q)
    (hq' : Quiet q') (hno : ∀ e ∈ q', Event.KeepsDin e) (hx : encodeSource src = .ok x) (s : State) :
    ∃ t : State, afterEvents (q ++ .dataInputUpdate src :: q') s = .next t ∧ SameExecution s t ∧
      t.din = x := by
  obtain ⟨u, hu, hsu⟩ := afterEvents_quiet hq s
  have hupd : SameExecution u { receive q' u with din := x } := by constructor <;> rfl
  obtain ⟨t, ht, hut, hdin⟩ := afterEvents_quiet_keeps_din hq' hno { receive q' u with din := x }
  exact ⟨t, by rw [afterEvents_append hu, afterEvents_update hx, ht], (hsu.trans hupd).trans hut, hdin⟩

/-- Settles O42: the edge of phase 1 stores `DIN` as the last successful update left it. -/
theorem mviTakesLastUpdate : Obligations.MviTakesLastUpdate := by
  intro d r s q q' source x hq hq' hno hx h0 hd hp hi
  have hsplit : q ++ .dataInputUpdate source :: (q' ++ [.clockEdge]) =
      (q ++ .dataInputUpdate source :: q') ++ [Event.clockEdge] := by simp
  rw [hsplit, afterEvents_fetch hp h0]
  have hfetched := executing_fetchEdge (s := receive ((q ++ .dataInputUpdate source :: q') ++ [.clockEdge]) s) h0 hd
  obtain ⟨u, hu, hsame, hdin⟩ := afterEvents_last_update hq hq' hno hx
    (fetchEdge (receive ((q ++ .dataInputUpdate source :: q') ++ [.clockEdge]) s))
  have hi' : decode (fetchField s.din) = .mvi d r := hi
  rw [afterEvents_append hu, (hfetched.of_sameExecution hsame).afterEvents_edge, receive_din, hi']
  have hregs : u.regs = s.regs := hsame.regs
  refine ⟨_, rfl, ?_, hdin, hdin, hsame.a, hsame.g, rfl, rfl⟩
  rw [← hregs, ← hdin]
  rfl

/-! ### add and sub -/

/-- Phase 1 of `add` and `sub` leads to phase 2. -/
theorem Executing.accumulate {ir : IrWord} {s : State} (hs : Executing ir .p1 s) (d : RegIdx) :
    Executing ir .p2 (accumulateEdge d s) :=
  ⟨by simp [nextPhase_of_p1 hs.phase, hs.done], hs.ir, rfl, rfl⟩

/-- Phase 2 of `add` and `sub` leads to phase 3. -/
theorem Executing.aluResult {ir : IrWord} {s : State} (hs : Executing ir .p2 s) (m : Bool) (r : RegIdx) :
    Executing ir .p3 (aluEdge m r s) :=
  ⟨by simp [nextPhase_of_p2 hs.phase, hs.done], hs.ir, rfl, rfl⟩

/-- `add` and `sub` from their fetch to their last edge, with quiet events between. -/
theorem aluInstr_completes {m : Bool} {d r : RegIdx} {s : State} {q₁ q₂ q₃ : List Event} (hq₁ : Quiet q₁)
    (hq₂ : Quiet q₂) (hq₃ : Quiet q₃) (h0 : s.phase = .p0) (hd : s.done = false)
    (hp : edgeProceeds s = true) (hi : decodeWord s.din = aluInstr m d r) :
    ∃ t : State,
      afterEvents (.clockEdge :: (q₁ ++ .clockEdge :: (q₂ ++ .clockEdge :: (q₃ ++ [.clockEdge])))) s =
        .next t ∧
      t.regs = writeReg s.regs d (alu (readReg s.regs d) (readReg s.regs r) m) ∧
      t.a = readReg s.regs d ∧ t.g = alu (readReg s.regs d) (readReg s.regs r) m ∧
      t.bus = alu (readReg s.regs d) (readReg s.regs r) m ∧
      t.done = true ∧ t.phase = .p0 ∧ t.ir = fetchField s.din := by
  have hi' : decode (fetchField s.din) = aluInstr m d r := hi
  obtain ⟨u₁, hu₁, he₁, heq₁⟩ :=
    afterEvents_fetch_quiet_edge h0 hd hp hq₁ (q₂ ++ .clockEdge :: (q₃ ++ [.clockEdge]))
  rw [hi, edgeRow_aluInstr_p1] at heq₁
  obtain ⟨u₂, hu₂, he₂, heq₂⟩ := (he₁.accumulate d).afterEvents_quiet_edge hq₂ (q₃ ++ [.clockEdge])
  rw [hi', edgeRow_aluInstr_p2] at heq₂
  obtain ⟨u₃, hu₃, he₃, heq₃⟩ := (he₂.aluResult m r).afterEvents_quiet_edge hq₃ []
  rw [hi', edgeRow_aluInstr_p3] at heq₃
  have hregs₁ : u₁.regs = s.regs := hu₁.regs
  have hregs₂ : u₂.regs = s.regs := hu₂.regs.trans hregs₁
  have hregs₃ : u₃.regs = s.regs := hu₃.regs.trans hregs₂
  have ha₂ : u₂.a = readReg s.regs d := hu₂.a.trans (congrArg (readReg · d) hregs₁)
  have ha₃ : u₃.a = readReg s.regs d := hu₃.a.trans ha₂
  have hg₃ : u₃.g = alu (readReg s.regs d) (readReg s.regs r) m := by
    rw [hu₃.g, aluEdge_g, ha₂, hregs₂]
  have hregs : writeReg u₃.regs d u₃.g =
      writeReg s.regs d (alu (readReg s.regs d) (readReg s.regs r) m) := by rw [hregs₃, hg₃]
  exact ⟨_, heq₁.trans (heq₂.trans heq₃), hregs, ha₃, hg₃, hg₃, rfl, nextPhase_of_p3 he₃.phase, he₃.ir⟩

/-- The difference as a number (R74, decision D2). -/
theorem alu_sub_toNat (a b : Word) : ((alu a b true).toNat : Int) = (a.toNat - b.toNat : Int) % 2 ^ 16 := by
  rw [alu_sub_eq, BitVec.toNat_ofInt]
  omega

/-- The same register by register: `dest` holds the result, which is in `G` and on the bus too. -/
theorem aluInstr_completes_registers {m : Bool} {d r : RegIdx} {s : State} {q₁ q₂ q₃ : List Event}
    (hq₁ : Quiet q₁) (hq₂ : Quiet q₂) (hq₃ : Quiet q₃) (h0 : s.phase = .p0) (hd : s.done = false)
    (hp : edgeProceeds s = true) (hi : decodeWord s.din = aluInstr m d r) :
    ∃ t : State,
      afterEvents (.clockEdge :: (q₁ ++ .clockEdge :: (q₂ ++ .clockEdge :: (q₃ ++ [.clockEdge])))) s =
        .next t ∧
      readReg t.regs d = alu (readReg s.regs d) (readReg s.regs r) m ∧
      (∀ k, k ≠ d → readReg t.regs k = readReg s.regs k) ∧
      t.a = readReg s.regs d ∧ t.g = readReg t.regs d ∧ t.bus = readReg t.regs d ∧
      t.done = true ∧ t.phase = .p0 := by
  obtain ⟨t, ht, hregs, ha, hg, hbus, hdone, hphase, -⟩ := aluInstr_completes hq₁ hq₂ hq₃ h0 hd hp hi
  have hreg : readReg t.regs d = alu (readReg s.regs d) (readReg s.regs r) m := by
    rw [hregs, readReg_writeReg_same]
  refine ⟨t, ht, hreg, fun k hk => ?_, ha, hg.trans hreg.symm, hbus.trans hreg.symm, hdone, hphase⟩
  rw [hregs, readReg_writeReg_other _ _ hk.symm]

/-- Settles O43: the sum that the ALU leaves in the register. -/
theorem addCompletesInFourEdges : Obligations.AddCompletesInFourEdges := by
  intro d r s q₁ q₂ q₃ hq₁ hq₂ hq₃ h0 hd hp hi
  obtain ⟨t, ht, hreg, hrest⟩ := aluInstr_completes_registers (m := false) hq₁ hq₂ hq₃ h0 hd hp hi
  exact ⟨t, ht, by rw [hreg, alu_add_toNat, Nat.add_comm], hrest⟩

/-- Settles O44: the difference that the ALU leaves in the register. -/
theorem subCompletesInFourEdges : Obligations.SubCompletesInFourEdges := by
  intro d r s q₁ q₂ q₃ hq₁ hq₂ hq₃ h0 hd hp hi
  obtain ⟨t, ht, hreg, hrest⟩ := aluInstr_completes_registers (m := true) hq₁ hq₂ hq₃ h0 hd hp hi
  exact ⟨t, ht, by rw [hreg, alu_sub_toNat], hrest⟩

end Sys2Proof.Machine
end

section
/-! PROOFS. The family of spec/70_reset_and_hazards.md: edge counts (R102), boot (R96), the done-clear edge (R97) and
one instruction with `run` low (R100). -/

namespace Sys2Proof.Machine

/-! ### Edge counts (R102) -/

/-- Over the next `n` edges `done` is true after edge `n` and not before. -/
def DoneFirstAfter (n : Nat) (s : State) : Prop :=
  ∀ k ≤ n, ∃ t : State, afterEvents (List.replicate k .clockEdge) s = .next t ∧ (t.done = true ↔ k = n)

theorem doneFirstAfter_zero {s : State} (hd : s.done = true) : DoneFirstAfter 0 s := by
  intro k hk
  obtain rfl : k = 0 := by omega
  exact ⟨_, rfl, by simp [hd]⟩

/-- One edge that proceeds from a state with `done` false, and then the count of the row it takes. -/
theorem doneFirstAfter_succ {n : Nat} {s : State} (hd : s.done = false) (hp : edgeProceeds s = true)
    (hrow : ∀ rest, DoneFirstAfter n (edgeRow (decode s.ir) s.phase (receive rest s))) :
    DoneFirstAfter (n + 1) s := by
  intro k hk
  cases k with
  | zero => exact ⟨_, rfl, by simp [hd]⟩
  | succ k =>
    obtain ⟨t, ht, hdone⟩ := hrow (List.replicate k .clockEdge) k (by omega)
    refine ⟨t, ?_, by rw [hdone]; omega⟩
    rw [List.replicate_succ, afterEvents_edgeRow hp, ht]

theorem Executing.doneFirstAfter_succ {n : Nat} {ir : IrWord} {p : Phase} {s : State} (hs : Executing ir p s)
    (hrow : ∀ rest, DoneFirstAfter n (edgeRow (decode ir) p (receive rest s))) :
    DoneFirstAfter (n + 1) s :=
  Machine.doneFirstAfter_succ hs.done hs.proceeds (by rwa [hs.ir, hs.phase])

/-- The fetch, and then the count of the fetched instruction. -/
theorem doneFirstAfter_fetch {n : Nat} {s : State} (h0 : s.phase = .p0) (hd : s.done = false)
    (hp : edgeProceeds s = true)
    (hnext : ∀ u, Executing (fetchField s.din) .p1 u → DoneFirstAfter n u) : DoneFirstAfter (n + 1) s := by
  refine doneFirstAfter_succ hd hp fun rest => ?_
  rw [h0, edgeRow_p0]
  exact hnext _ (executing_fetchEdge (s := receive rest s) h0 hd)

/-- `mv` and `mvi` set `done` in phase 1. -/
theorem Executing.move_count {ir : IrWord} {s : State} (hs : Executing ir .p1 s)
    (ho : opcodeField ir = 0 ∨ opcodeField ir = 1) : DoneFirstAfter 1 s :=
  hs.doneFirstAfter_succ fun _ => doneFirstAfter_zero ((edgeRow_done _ _ _).2 (.inl ⟨rfl, ho⟩))

/-- Receiving an event leaves the core where it is in its instruction. -/
theorem Executing.received {ir : IrWord} {p : Phase} {s : State} (hs : Executing ir p s) (rest : List Event) :
    Executing ir p (receive rest s) :=
  ⟨hs.phase, hs.ir, hs.done, hs.awaitingFirstRun⟩

/-- The opcodes of the ALU family name its instructions (R52). -/
theorem exists_aluInstr {ir : IrWord} (ho : (opcodeField ir).toNat = 2 ∨ (opcodeField ir).toNat = 3) :
    ∃ m d r, decode ir = aluInstr m d r := by
  rcases ho with ho | ho
  · exact ⟨false, _, _, by rw [decode, ho]; rfl⟩
  · exact ⟨true, _, _, by rw [decode, ho]; rfl⟩

/-- `add` and `sub` set `done` in phase 3, two phases after phase 1. -/
theorem Executing.alu_count {ir : IrWord} {m : Bool} {d r : RegIdx} (hi : decode ir = aluInstr m d r)
    {s : State} (hs : Executing ir .p1 s) : DoneFirstAfter 3 s := by
  have hlast {u : State} (hu : Executing ir .p3 u) : DoneFirstAfter 1 u :=
    hu.doneFirstAfter_succ fun _ => doneFirstAfter_zero (by rw [hi, edgeRow_aluInstr_p3, writeBackEdge_done])
  have hmiddle {u : State} (hu : Executing ir .p2 u) : DoneFirstAfter 2 u :=
    hu.doneFirstAfter_succ fun rest => by
      rw [hi, edgeRow_aluInstr_p2]
      exact hlast ((hu.received rest).aluResult m r)
  refine hs.doneFirstAfter_succ fun rest => ?_
  rw [hi, edgeRow_aluInstr_p1]
  exact hmiddle ((hs.received rest).accumulate d)

/-- Opcodes 4 to 7 are never done: fetched, they stall (R67). -/
theorem afterEvents_edges_undefined {s : State} (h0 : s.phase = .p0) (hd : s.done = false)
    (hp : edgeProceeds s = true) (ho : 4 ≤ (opcodeField (fetchField s.din)).toNat) (k : Nat) :
    ∃ t : State, afterEvents (List.replicate k .clockEdge) s = .next t ∧ t.done = false := by
  cases k with
  | zero => exact ⟨_, rfl, hd⟩
  | succ k =>
    have hx : Executing (fetchField s.din) .p1 (fetchEdge (receive (List.replicate k .clockEdge) s)) :=
      executing_fetchEdge (s := receive _ s) h0 hd
    have hstall : (fetchEdge (receive (List.replicate k .clockEdge) s)).Stalled :=
      ⟨by rw [hx.phase]; exact Phase.noConfusion, (opcode_undefined_iff _).1 ho, rfl⟩
    obtain ⟨t, ht, hst⟩ := afterEvents_stalled (List.replicate k .clockEdge) hstall
    exact ⟨t, by rw [List.replicate_succ, afterEvents_fetch hp h0, ht], hst.1.not_done⟩

/-- Settles O45: the fetch and the count of the fetched instruction. -/
theorem edgeCounts : Obligations.EdgeCounts := by
  refine fun s k h0 hd hp => ⟨fun ho hk => ?_, fun ho hk => ?_, fun ho => afterEvents_edges_undefined h0 hd hp ho k⟩
  · have ho' : opcodeField (fetchField s.din) = 0 ∨ opcodeField (fetchField s.din) = 1 := by
      rcases Nat.le_one_iff_eq_zero_or_eq_one.1 ho with h | h
      · exact .inl (BitVec.eq_of_toNat_eq h)
      · exact .inr (BitVec.eq_of_toNat_eq h)
    exact doneFirstAfter_fetch h0 hd hp (fun u hu => hu.move_count ho') k hk
  · obtain ⟨m, d, r, hi⟩ := exists_aluInstr ho
    exact doneFirstAfter_fetch h0 hd hp (fun u hu => hu.alu_count hi) k hk

/-! ### The done-clear edge (R97) -/

/-- The edge after a done edge fetches and stays at phase 0 (R63, R66). -/
theorem fetchEdge_phase_of_done {s : State} (h0 : s.phase = .p0) (hd : s.done = true) :
    (fetchEdge s).phase = .p0 := by
  rw [fetchEdge_phase, nextPhase_of_p0 h0, if_pos hd]

/-- With `run` true the edge after a done edge fetches, and so does the next one, from the phase 0 it left (R97). -/
theorem afterEvents_fetch_twice {s : State} (h0 : s.phase = .p0) (hd : s.done = true) (hrun : s.run = true) :
    afterEvents [.clockEdge, .clockEdge] s =
      .next (fetchEdge (receive [] (fetchEdge (receive [.clockEdge] s)))) := by
  have hp : edgeProceeds s = true := (edgeProceeds_iff s).2 (.inl hrun)
  have h0' : (fetchEdge (receive [.clockEdge] s)).phase = .p0 :=
    fetchEdge_phase_of_done (s := receive _ s) h0 hd
  exact (afterEvents_fetch hp h0).trans (afterEvents_fetch (edgeProceeds_fetchEdge _) h0')

/-- Settles O48: the second fetch overwrites what the first one took, so the order of the update does not matter. -/
theorem doneClearEdgeFetchesTwice : Obligations.DoneClearEdgeFetchesTwice := by
  intro s source w h0 hd hrun hw
  have hp : edgeProceeds s = true := (edgeProceeds_iff s).2 (.inl hrun)
  have h0' (rest : List Event) : (fetchEdge (receive rest s)).phase = .p0 :=
    fetchEdge_phase_of_done (s := receive rest s) h0 hd
  refine ⟨⟨_, afterEvents_fetch hp h0, rfl, rfl, h0' [], rfl⟩, fetchEdge { fetchEdge (receive [] s) with din := w },
    ?_, ?_, rfl, rfl, fetchEdge_phase_of_not_done (h0' []) rfl, rfl⟩
  · rw [afterEvents_update hw]
    exact afterEvents_fetch_twice h0 hd hrun
  · rw [afterEvents_fetch hp h0, afterEvents_update hw]
    exact afterEvents_fetch (edgeProceeds_fetchEdge _) (h0' _)

/-! ### Boot (R96) -/

/-- Settles O50: the update and the tick write different fields, and the tick's `run` lets the first edge fetch. -/
theorem bootFetchesFirstWord : Obligations.BootFetchesFirstWord := by
  intro source w env hw hrun
  have hproceeds {u : State} (hu : u.run = env.run) : edgeProceeds u = true :=
    (edgeProceeds_iff u).2 (.inl (hu.trans hrun))
  refine ⟨fetchEdge { environmentTick env State.reset with din := w }, ?_, ?_, rfl, ?_, rfl, rfl, rfl⟩
  · rw [afterEvents_update hw, afterEvents_tick, afterEvents_fetch (hproceeds rfl) rfl]
    rfl
  · rw [afterEvents_tick, afterEvents_update hw, afterEvents_fetch (hproceeds rfl) rfl]
    rfl
  · exact fetchEdge_phase_of_not_done rfl rfl

/-! ### One instruction with `run` low (R100) -/

/-- A tick with `run` true, one edge and a tick with `run` false leave a completed core at phase 0 with `done` clear, so
that its edges proceed although `run` is false. -/
theorem afterEvents_rearm {s : State} {up down : Environment} (h0 : s.phase = .p0) (hd : s.done = true)
    (hup : up.run = true) (hdown : down.run = false) :
    ∃ u : State, afterEvents [.environmentTick up, .clockEdge, .environmentTick down] s = .next u ∧
      u.phase = .p0 ∧ u.done = false ∧ edgeProceeds u = true ∧ u.run = false ∧ u.din = s.din ∧
      u.regs = s.regs := by
  have hp : edgeProceeds (environmentTick up (receive [.clockEdge, .environmentTick down] s)) = true :=
    (edgeProceeds_iff _).2 (.inl hup)
  refine ⟨_, (afterEvents_tick up _ s).trans ((afterEvents_fetch hp h0).trans (afterEvents_tick down [] _)),
    ?_, rfl, (edgeProceeds_iff _).2 (.inr ⟨rfl, rfl⟩), hdown, rfl, rfl⟩
  exact fetchEdge_phase_of_done
    (s := receive [.environmentTick down] (environmentTick up (receive [.clockEdge, .environmentTick down] s))) h0 hd

/-- Clock edges leave `run` (R34). -/
theorem afterEvents_edges_keep_run {k : Nat} {s t : State}
    (h : afterEvents (List.replicate k .clockEdge) s = .next t) : t.run = s.run := by
  obtain ⟨u, hu, hrun⟩ := afterEvents_keeps (P := fun u => u.run = s.run) (ok := (· = .clockEdge)) (s := s)
    (by
      rintro _ v w rfl hv hw
      rcases clockEdge_cases hw with ⟨-, hexec⟩ | ⟨-, rfl⟩
      · rw [exec_eq_edgeRow] at hexec
        rw [← Host.Outcome.next.inj hexec, ← hv]
        exact (edgeRow_hostFields _ _ v).2.1
      · exact hv)
    (fun _ he => List.eq_of_mem_replicate he) rfl
  rw [Host.Outcome.next.inj (h.symm.trans hu), hrun]

/-- If the instruction in `DIN` completes in `j` edges from phase 0 with `done` false, then R100's sequence runs exactly
that instruction: the core holds, with `run` false, however many edges follow. -/
theorem afterEvents_one_instruction {s : State} {up down : Environment} (h0 : s.phase = .p0) (hd : s.done = true)
    (hup : up.run = true) (hdown : down.run = false) {j : Nat} {regs : RegFile}
    (hcompletes : ∀ u : State, u.phase = .p0 → u.done = false → edgeProceeds u = true → u.din = s.din →
      u.regs = s.regs → ∃ t : State, afterEvents (List.replicate j .clockEdge) u = .next t ∧ t.regs = regs ∧
        t.done = true ∧ t.phase = .p0 ∧ t.ir = fetchField s.din) (n : Nat) :
    ∃ t : State,
      afterEvents ([.environmentTick up, .clockEdge, .environmentTick down] ++
        List.replicate (j + n) .clockEdge) s = .next t ∧
      t.regs = regs ∧ t.ir = fetchField s.din ∧ t.done = true ∧ t.phase = .p0 ∧ t.run = false := by
  obtain ⟨u, hu, hu0, hud, hup', hurun, hudin, huregs⟩ := afterEvents_rearm h0 hd hup hdown
  obtain ⟨t, ht, hregs, hdone, hphase, hir⟩ := hcompletes u hu0 hud hup' hudin huregs
  have htrun : t.run = false := (afterEvents_edges_keep_run ht).trans hurun
  obtain ⟨v, hv, hvt⟩ := afterEvents_waiting n htrun (.inr hdone)
  refine ⟨v, ?_, ?_⟩
  · rw [afterEvents_append hu, List.replicate_add, afterEvents_append ht, hv]
  · rw [hvt]
    exact ⟨hregs, hir, hdone, hphase, htrun⟩

/-- `mvi` without events between its edges stores the word it was fetched from (R71). -/
theorem mvi_completes {d r : RegIdx} {s : State} (h0 : s.phase = .p0) (hd : s.done = false)
    (hp : edgeProceeds s = true) (hi : decodeWord s.din = .mvi d r) :
    ∃ t : State, afterEvents [.clockEdge, .clockEdge] s = .next t ∧
      t.regs = writeReg s.regs d s.din ∧ t.done = true ∧ t.phase = .p0 ∧ t.ir = fetchField s.din := by
  rw [afterEvents_fetch_execute hp h0 hd, hi]
  exact ⟨_, rfl, rfl, rfl, rfl, rfl⟩

theorem quiet_nil : Quiet [] := List.forall_mem_nil _

/-- `add` and `sub` without events between their edges. -/
theorem aluInstr_completes_edges {m : Bool} {d r : RegIdx} {s : State} (h0 : s.phase = .p0) (hd : s.done = false)
    (hp : edgeProceeds s = true) (hi : decodeWord s.din = aluInstr m d r) :
    ∃ t : State, afterEvents (List.replicate 4 .clockEdge) s = .next t ∧
      t.regs = writeReg s.regs d (alu (readReg s.regs d) (readReg s.regs r) m) ∧
      t.done = true ∧ t.phase = .p0 ∧ t.ir = fetchField s.din := by
  obtain ⟨t, ht, hregs, -, -, -, hrest⟩ := aluInstr_completes quiet_nil quiet_nil quiet_nil h0 hd hp hi
  exact ⟨t, ht, hregs, hrest⟩

/-- Settles O49: each of the four instructions completes with nothing between its edges. -/
theorem oneInstructionWithRunLow : Obligations.OneInstructionWithRunLow := by
  intro s up down d r n h0 hd hup hdown
  refine ⟨fun hi => ?_, fun hi => ?_, fun hi => ?_, fun hi => ?_⟩ <;>
    refine afterEvents_one_instruction h0 hd hup hdown (fun u hu0 hud hp hdin hregs => ?_) n <;>
    rw [← hdin] at hi ⊢ <;> rw [← hregs]
  · obtain ⟨t, ht, htregs, -, -, -, hrest⟩ := mv_completes quiet_nil hu0 hud hp hi
    exact ⟨t, ht, htregs, hrest⟩
  · exact mvi_completes hu0 hud hp hi
  · rw [Nat.add_comm, ← alu_add_eq]
    exact aluInstr_completes_edges (m := false) hu0 hud hp hi
  · rw [← alu_sub_eq]
    exact aluInstr_completes_edges (m := true) hu0 hud hp hi

end Sys2Proof.Machine
end
